-- ==== Sys2Proof/Word.lean ====
section
/-! DEFINITION. The two word types of the Neander engine: the 8-bit byte (R3, R5) and the 4-bit nibble of an opcode byte
(R5: the "high nibble" is bits 7:4, the "low nibble" bits 3:0). -/

namespace Sys2Proof

/-- A vector of 8 bits, bit 7 the most significant (R5). Registers, addresses and memory bytes are all of this width
(R3). `BitVec.toNat` is the spec's `u(b)`, `BitVec.toInt` its `s(b)`, and `+` its `+8`. -/
abbrev Byte := BitVec 8

/-- Half a byte: the `op` and the `x` field of an opcode byte (R51, R52). -/
abbrev Nibble := BitVec 4

end Sys2Proof
end

