-- ==== Sys2Proof/Config.lean ====
section
/-! DEFINITION. The implementation parameters of R4, as plain data. Their default values are in `Decode.lean`
(`OpcodeMap.classic`) and `Machine/Defaults.lean` (`defaultConfig`), where a later repair can mend them. -/

namespace Sys2Proof

/-- The parameter `OPCODE_MAP` of R4: the `op` value that selects each of the eleven instructions (R54, R55). R55 says
each instruction has exactly one `op` value and every other value is invalid, so naming the value of each instruction
loses no admissible map; `OpcodeMap.Admissible` says the eleven values are distinct. -/
structure OpcodeMap where
  nopCode : Nibble
  staCode : Nibble
  ldaCode : Nibble
  addCode : Nibble
  orCode  : Nibble
  andCode : Nibble
  notCode : Nibble
  jmpCode : Nibble
  jnCode  : Nibble
  jzCode  : Nibble
  hltCode : Nibble
  deriving DecidableEq, Repr

/-- The named parameters of R4 but `IMAGE`, which is the memory given to the reset. A claim about every state of the
model is a claim about every value of these, as R4 asks. -/
structure Config where
  /-- `OPCODE_MAP` (D1). -/
  opcodes : OpcodeMap
  /-- `HLT_STICKY` (D2, D23): whether an executed HLT blocks later steps. -/
  hltSticky : Bool
  /-- `RESET_ACC` (D4). -/
  resetAcc : Byte
  /-- `RESET_ZERO` (D4). -/
  resetZero : Bool
  /-- `RESET_NEGATIVE` (D4). -/
  resetNegative : Bool
  deriving DecidableEq, Repr

end Sys2Proof
end

