-- ==== Sys2Proof/Syntax.lean ====
section
/-! DEFINITION. The instruction set: eleven mnemonics (R54) and the instructions they name, one constructor for each row
of `spec/opcode_table.json`. -/

namespace Sys2Proof

/-- The eleven mnemonics of R54, in the document's order: what the `op` field of an opcode byte selects. -/
inductive Opcode where
  | nop | sta | lda | add | or | and | not | jmp | jn | jz | hlt
  deriving DecidableEq, Repr

/-- An instruction. Format `I` (R51) has no operand; format `A` (R52) has one, an 8-bit absolute address (R53). The low
nibble of the opcode byte is no part of an instruction: R57 says it is ignored. -/
inductive Instr where
  /-- NOP, no operation (R85). -/
  | nop
  /-- STA addr, store accumulator (R86). -/
  | sta (addr : Byte)
  /-- LDA addr, load accumulator (R87). -/
  | lda (addr : Byte)
  /-- ADD addr, add memory byte to accumulator (R88). -/
  | add (addr : Byte)
  /-- OR addr, bitwise or of memory byte into accumulator (R89). -/
  | or (addr : Byte)
  /-- AND addr, bitwise and of memory byte into accumulator (R90). -/
  | and (addr : Byte)
  /-- NOT, bitwise complement of the accumulator (R91). -/
  | not
  /-- JMP addr, unconditional jump (R92). -/
  | jmp (addr : Byte)
  /-- JN addr, jump if negative (R93). -/
  | jn (addr : Byte)
  /-- JZ addr, jump if zero (R94). -/
  | jz (addr : Byte)
  /-- HLT, halt (R95). -/
  | hlt
  deriving DecidableEq, Repr

end Sys2Proof
end

