-- ==== Sys2Proof/WellFormed.lean ====
section
/-! DEFINITION. What must hold of parameters and of a placed instruction. Every instruction is well formed by itself:
R59 says every operand value is legal for every format-`A` instruction, and the operand's width is its type's. -/

namespace Sys2Proof

/-- The `op` values of a map, in the order of R54. -/
def OpcodeMap.codes (m : OpcodeMap) : List Nibble :=
  [m.nopCode, m.staCode, m.ldaCode, m.addCode, m.orCode, m.andCode, m.notCode, m.jmpCode, m.jnCode, m.jzCode, m.hltCode]

/-- R55: any `OPCODE_MAP` is injective on the eleven instructions. -/
abbrev OpcodeMap.Admissible (m : OpcodeMap) : Prop := m.codes.Nodup

/-- The constraints R4 puts on the parameters: an admissible `OPCODE_MAP`, and `RESET_NEGATIVE` not true together with
`RESET_ZERO` (also R22). -/
abbrev Config.WF (c : Config) : Prop :=
  c.opcodes.Admissible ∧ ¬ (c.resetZero = true ∧ c.resetNegative = true)

/-- How many bytes an instruction occupies (R50). -/
def Instr.length : Instr → Nat
  | .nop | .not | .hlt => 1
  | .sta _ | .lda _ | .add _ | .or _ | .and _ | .jmp _ | .jn _ | .jz _ => 2

/-- R60: an instruction never spans the end of memory. It fits at an address when its last byte is at 255 or below. -/
abbrev Instr.FitsAt (i : Instr) (a : Byte) : Prop := a.toNat + i.length ≤ 256

end Sys2Proof
end

