-- ==== Sys2Proof/Decode.lean ====
section
/-! DEFINITION. The decoder (R50 to R58) and, after it, the encoder, both over the parameter `OPCODE_MAP`; the default
map of R55; and the host's `decodeTableWord`. -/

namespace Sys2Proof

/-! ## Bit fields (R5) -/

/-- `b[7:4]`, the field `op` of an opcode byte. -/
def highNibble (b : Byte) : Nibble := b.extractLsb' 4 4

/-- `b[3:0]`, the field `x` of an opcode byte: "unused/reserved, ignored" (R51, R52, R57). -/
def lowNibble (b : Byte) : Nibble := b.extractLsb' 0 4

/-- An opcode byte from its two fields. -/
def opcodeByte (op x : Nibble) : Byte := op ++ x

/-! ## The opcode map (R55) -/

/-- The default `OPCODE_MAP` of R55. PRESUMED: the numbers are from general knowledge of the Neander teaching machine
(G1), not from the source; unsafe (log entry 1). -/
def OpcodeMap.classic : OpcodeMap where
  nopCode := 0x0#4
  staCode := 0x1#4
  ldaCode := 0x2#4
  addCode := 0x3#4
  orCode  := 0x4#4
  andCode := 0x5#4
  notCode := 0x6#4
  jmpCode := 0x8#4
  jnCode  := 0x9#4
  jzCode  := 0xA#4
  hltCode := 0xF#4

/-- The `op` value that selects an instruction under a map. -/
def OpcodeMap.code (m : OpcodeMap) : Opcode → Nibble
  | .nop => m.nopCode
  | .sta => m.staCode
  | .lda => m.ldaCode
  | .add => m.addCode
  | .or  => m.orCode
  | .and => m.andCode
  | .not => m.notCode
  | .jmp => m.jmpCode
  | .jn  => m.jnCode
  | .jz  => m.jzCode
  | .hlt => m.hltCode

/-- The instruction list of R54, in the document's order. -/
def Opcode.all : List Opcode := [.nop, .sta, .lda, .add, .or, .and, .not, .jmp, .jn, .jz, .hlt]

/-- `OPCODE_MAP` as R4 types it: from a 4-bit value to a mnemonic, or `none` for `invalid`. -/
def OpcodeMap.lookup (m : OpcodeMap) (op : Nibble) : Option Opcode :=
  Opcode.all.find? (fun o => m.code o == op)

/-! ## Formats (R50, R54) -/

/-- R50, R54: the eight format-`A` mnemonics take an operand byte; NOP, NOT and HLT take none. -/
def Opcode.needsOperand : Opcode → Bool
  | .nop | .not | .hlt => false
  | .sta | .lda | .add | .or | .and | .jmp | .jn | .jz => true

/-- The instruction a mnemonic and an operand byte make (R52, R53: the operand is the whole second byte, used
unchanged). A format-`I` mnemonic has no operand and takes nothing from the byte. -/
def Opcode.withOperand (o : Opcode) (a : Byte) : Instr :=
  match o with
  | .nop => .nop
  | .sta => .sta a
  | .lda => .lda a
  | .add => .add a
  | .or  => .or a
  | .and => .and a
  | .not => .not
  | .jmp => .jmp a
  | .jn  => .jn a
  | .jz  => .jz a
  | .hlt => .hlt

/-! ## Decoding -/

/-- Why bytes are no instruction. That a list of bytes that ends too early is `noBytes` or `missingArgument` is the
model's form, DESIGN CHOICE (log entry 23). -/
inductive DecodeError where
  /-- There is no byte to decode. -/
  | noBytes
  /-- The high nibble selects no instruction; the whole byte is reported, low nibble included (R56, R102; the spec's D15,
  log entry 16). -/
  | invalidInstruction (b : Byte)
  /-- The instruction needs an operand and no byte follows (R56, R103). -/
  | missingArgument
  deriving DecidableEq, Repr

/-- `Decode(b)` of R56: the mnemonic an opcode byte selects, by its high nibble alone, or `InvalidInstruction(b)`. -/
def decodeOpcode (m : OpcodeMap) (b : Byte) : Except DecodeError Opcode :=
  match m.lookup (highNibble b) with
  | some o => .ok o
  | none => .error (.invalidInstruction b)

/-- One instruction from the front of a list of bytes in ascending address order (R36), with the bytes that follow it.
Total: every list gives an instruction or a named reason. -/
def decodeWith (m : OpcodeMap) : List Byte → Except DecodeError (Instr × List Byte)
  | [] => .error .noBytes
  | b :: rest =>
    match decodeOpcode m b with
    | .error e => .error e
    | .ok o =>
      if o.needsOperand then
        match rest with
        | [] => .error .missingArgument
        | a :: rest' => .ok (o.withOperand a, rest')
      else .ok (o.withOperand 0x00#8, rest)

/-- Decoding under the default map of R55. -/
def decode (bytes : List Byte) : Except DecodeError (Instr × List Byte) :=
  decodeWith OpcodeMap.classic bytes

/-! ## Encoding (R50 to R55) -/

/-- The mnemonic of an instruction. -/
def Instr.opcode : Instr → Opcode
  | .nop => .nop
  | .sta _ => .sta
  | .lda _ => .lda
  | .add _ => .add
  | .or _ => .or
  | .and _ => .and
  | .not => .not
  | .jmp _ => .jmp
  | .jn _ => .jn
  | .jz _ => .jz
  | .hlt => .hlt

/-- The bytes after the opcode byte: the address of format `A` (R52), nothing for format `I` (R51). -/
def Instr.operandBytes : Instr → List Byte
  | .nop | .not | .hlt => []
  | .sta a | .lda a | .add a | .or a | .and a | .jmp a | .jn a | .jz a => [a]

/-- The bytes of an instruction under a map, with any value `x` in the ignored low nibble (R51, R52). -/
def encodeWith (m : OpcodeMap) (x : Nibble) (i : Instr) : List Byte :=
  opcodeByte (m.code i.opcode) x :: i.operandBytes

/-- The canonical encoding: the default map, low nibble zero (R55, column "Opcode byte with `x = 0`"). -/
def encode (i : Instr) : List Byte := encodeWith OpcodeMap.classic 0x0#4 i

/-! ## The opcode table's words -/

/-- The two lowest bytes of a table word of `nbits` bits: bit 0 of the word is bit 0 of the opcode byte, and the operand
byte is bits 15..8. Bits from `nbits` up count as zero. No instruction is longer (R50). -/
def tableWordBytes (nbits w : Nat) : List Byte :=
  [BitVec.ofNat 8 (w % 2 ^ nbits), BitVec.ofNat 8 (w % 2 ^ nbits / 256)]

/-- The instruction the decoder reads from a word of `spec/opcode_table.json`. -/
def decodeTableWord (nbits w : Nat) : Option Instr :=
  match decode (tableWordBytes nbits w) with
  | .ok (i, _) => some i
  | .error _ => none

end Sys2Proof
end

