-- ==== Sys2Proof/Machine/Defaults.lean ====
section
/-! DEFINITION. The values the spec gives its parameters and its reset where the source document is silent: kept here,
apart from `State`, so that a later repair can mend a value. -/

namespace Sys2Proof.Machine

/-- The defaults of R4. `HLT_STICKY = false` is the spec's D2 (conflict C4; log entry 2). DESIGN CHOICE: `RESET_ACC`,
`RESET_ZERO` and `RESET_NEGATIVE` are the spec's own choice, D4; unsafe (log entry 3). -/
def defaultConfig : Config where
  opcodes := OpcodeMap.classic
  hltSticky := false
  resetAcc := 0x00#8
  resetZero := false
  resetNegative := false

/-- R22, R132: the entry point is address 0. DEDUCED (by the spec, D3: the document does not say it in words); unsafe
(log entry 4). -/
def resetVector : Byte := 0x00#8

/-- What a memory address that nothing has written reads as: R22, "`0x00` wherever the loader wrote nothing". DEDUCED
(by the spec, D5); unsafe (log entry 5). -/
def unwrittenByte : Byte := 0x00#8

end Sys2Proof.Machine
end

