-- ==== Sys2Proof/Machine/State.lean ====
section
/-! DEFINITION. The state of the engine (R10, R20), the outcomes of a step (R71), and reset (R22). -/

namespace Sys2Proof.Machine

/-- The three exceptions of R100. The names are the codes (R104). -/
inductive StepException where
  /-- R101: a fetch attempted after `halted`. -/
  | endOfProgram
  /-- R102: the opcode byte selects no instruction; the whole byte is recorded. -/
  | invalidInstruction (byte : Byte)
  /-- R103: the operand fetch hit end-of-program. -/
  | missingArgument
  deriving DecidableEq, Repr

/-- What one step reports (R71). -/
inductive StepOutcome where
  /-- Normal completion. -/
  | normal
  /-- Halted via HLT. -/
  | halted
  /-- A memory write: the address, unsigned, and the value, signed, -128 to 127 (R72). -/
  | write (addr : Byte) (value : Int)
  /-- One of the three exceptions. -/
  | exception (e : StepException)
  deriving DecidableEq, Repr

/-- The 256 bytes of memory (R17) as the list of the cells that differ from `unwrittenByte`, in strictly rising order of
address. `Memory.wf` (in `Ops.lean`) says that this form holds. -/
abbrev Memory := List Host.Cell

/-- There is no fault. Every `step()` reports exactly one outcome (R71) and leaves a state that can be stepped again
(R107, R108), so all six outcomes are next states, and nobody raises a fault. Safe: a claim that no step stops is the
spec's own ("the engine always has a step", `93_implementation_defined.md`); log entry 8. -/
inductive Fault where
  deriving DecidableEq, Repr

/-- The reasons for which the model gives no meaning. -/
inductive Refusal where
  /-- Raised by an arm of `exec` whose instruction has no meaning yet; no arm does. Safe: the machine stops where the
  hardware goes on. -/
  | notModelled (mnemonic : String)
  deriving DecidableEq, Repr

/-- The state of the engine. The first six fields are the whole architectural state (R10), the seventh is the optional
hidden bit of R20; the last two are the model's own. -/
structure State where
  /-- The address of the next instruction byte to fetch (R11). -/
  pc : Byte
  /-- The accumulator, the sole general register (R12). -/
  acc : Byte
  /-- `Z`: the last flag-writing result was 0 (R13). -/
  zero : Bool
  /-- `N`: the last flag-writing result was negative (R14). -/
  negative : Bool
  /-- `H`: the sticky end-of-program indicator (R15). -/
  halted : Bool
  /-- The 256 bytes shared by code and data (R17). -/
  mem : Memory
  /-- `hlt_latched`: set by HLT where `HLT_STICKY` is true (R20, R80); where it is false the bit does not exist, and
  this field stays false. -/
  hltLatched : Bool
  /-- The MODEL's own: the parameters of R4, fixed for a machine and written by no step (log entry 7). -/
  config : Config
  /-- The MODEL's own: the outcome that the latest step reported, `none` before the first (R19: an outcome is returned
  and not stored; it is an output that no step reads; log entry 6). -/
  outcome : Option StepOutcome
  deriving DecidableEq, Repr

/-- The transaction `reset(IMAGE)` of R78 under given parameters: every element at its value of R22. -/
def State.resetWith (c : Config) (image : Memory) : State where
  pc := resetVector
  acc := c.resetAcc
  zero := c.resetZero
  negative := c.resetNegative
  halted := false
  mem := image
  hltLatched := false
  config := c
  outcome := none

/-- The machine right after reset, with every parameter at its default of R4: memory is `0x00` everywhere (R22). -/
def State.reset : State := State.resetWith defaultConfig []

end Sys2Proof.Machine
end

