-- ==== Sys2Proof/Machine/Ops.lean ====
section
/-! DEFINITION. The named operations over memory and registers: the canonical memory, `MemRead`, `MemWrite` and `Fetch`
(R32 to R34), the report of an outcome (R71), and the taking of an exception (R107). -/

namespace Sys2Proof.Machine

/-! ## Memory as data -/

/-- The byte at an address. -/
def Memory.readCell : Memory → Nat → Byte
  | [], _ => unwrittenByte
  | (k, v) :: m, a => if k = a then v else readCell m a

/-- The memory with a byte stored at an address, in the canonical form: a byte equal to what an unlisted address reads as
is not listed. -/
def Memory.writeCell : Memory → Nat → Byte → Memory
  | [], a, v => if v = unwrittenByte then [] else [(a, v)]
  | (k, w) :: m, a, v =>
    if a < k then
      if v = unwrittenByte then (k, w) :: m else (a, v) :: (k, w) :: m
    else if a = k then
      if v = unwrittenByte then m else (a, v) :: m
    else (k, w) :: writeCell m a v

/-- All addresses of a memory are at least `lo`, rise strictly, are below 256 (R30), and no entry is equal to what an
unlisted address reads as. -/
def Memory.wfFrom : Nat → Memory → Bool
  | _, [] => true
  | lo, (k, v) :: m => decide (lo ≤ k) && decide (k < 256) && decide (v ≠ unwrittenByte) && wfFrom (k + 1) m

/-- The canonical form of a memory: equal memories are equal lists. -/
def Memory.wf (m : Memory) : Bool := Memory.wfFrom 0 m

/-- The canonical memory that holds the bytes `f 0`, `f 1`, ... of the parameter `IMAGE` (R4) from address `n` down to
address 0, over `m`. -/
def Memory.fill (f : Byte → Byte) : Nat → Memory → Memory
  | 0, m => m
  | n + 1, m => fill f n (m.writeCell n (f (BitVec.ofNat 8 n)))

/-- The memory of an `IMAGE`, a function from address to byte (R4). -/
def Memory.ofImage (f : Byte → Byte) : Memory := Memory.fill f 256 []

/-! ## Access primitives -/

/-- `MemRead(addr, 1)` (R32). -/
def State.memRead (s : State) (a : Byte) : Byte := s.mem.readCell a.toNat

/-- `MemWrite(addr, 1, v)` (R33). -/
def State.memWrite (s : State) (a v : Byte) : State := { s with mem := s.mem.writeCell a.toNat v }

/-- Whether fetching at an address is the wrap of R34: "the address fetched was 255". -/
def isLastAddress (a : Byte) : Bool := a == 0xFF#8

/-- `Fetch()` of R34: the byte at `pc` and the state after the fetch, or `none` where it fails. A fetch at 255 sets `H`
and wraps `pc`. -/
def State.fetch (s : State) : Option (Byte × State) :=
  if s.halted then none
  else some (s.memRead s.pc, { s with halted := s.halted || isLastAddress s.pc, pc := s.pc + 1#8 })

/-! ## Outcomes and exceptions -/

/-- The end of a step that reports `o` (R71). -/
def State.report (o : StepOutcome) (s : State) : State := { s with outcome := some o }

/-- A step that completes: `return o`. -/
def State.complete (o : StepOutcome) (s : State) : Host.Outcome State Fault Refusal := .next (s.report o)

/-- TAKING AN EXCEPTION (R107): the step ends and its outcome is the exception. Control does not move inside the machine:
no vector, no saved register, no mode; what the step wrote before stays written (R76). There is no return from an
exception beside it: R108 says there is no such instruction and nothing to restore; the next step goes on from this
state. -/
def State.raise (e : StepException) (s : State) : State := s.report (.exception e)

/-- The state an outcome holds, if it holds one. -/
def nextOf : Host.Outcome State Fault Refusal → Option State
  | .next s => some s
  | .fault _ => none
  | .refused _ => none

end Sys2Proof.Machine
end

