-- ==== Sys2Proof/Machine/Flags.lean ====
section
/-! DEFINITION. The flag recomputation rule `SetZN` (R74). It is the only flag computation: there is no carry and no
overflow flag (R73), and `H` is set by `Fetch()` alone (R15). -/

namespace Sys2Proof.Machine

/-- `SetZN(v)` of R74: clear both, then set zero if the result is 0, else set negative if its bit 7 is 1. -/
def State.setZN (v : Byte) (s : State) : State :=
  let cleared := { s with zero := false, negative := false }
  if v = 0x00#8 then { cleared with zero := true }
  else if v.msb then { cleared with negative := true }
  else cleared

end Sys2Proof.Machine
end

