-- ==== Sys2Proof/Machine/Alu.lean ====
section
/-! DEFINITION. The 8-bit ALU (R73) and what the five flag-writing instructions share: the result goes to `acc`, then
`SetZN` is applied to it (R65, D22). -/

namespace Sys2Proof.Machine

/-- The five functions of the ALU (R73). -/
inductive AluFunction where
  | passB | add | or | and | not
  deriving DecidableEq, Repr

/-- The result of an ALU function on the accumulator `a` and the memory byte `b` (R73): 8 bits, wrapping, no carry. -/
def alu (f : AluFunction) (a b : Byte) : Byte :=
  match f with
  | .passB => b
  | .add => a + b
  | .or => a ||| b
  | .and => a &&& b
  | .not => ~~~a

/-- `acc <- v ; SetZN(acc)`. -/
def State.setAcc (v : Byte) (s : State) : State := ({ s with acc := v } : State).setZN v

/-- A flag-writing instruction: the ALU result of `acc` and `b` into `acc`, the flags from it, outcome `Normal`. -/
def State.accumulate (f : AluFunction) (b : Byte) (s : State) : Host.Outcome State Fault Refusal :=
  (s.setAcc (alu f s.acc b)).complete .normal

end Sys2Proof.Machine
end

