-- ==== Sys2Proof/Machine/Operands.lean ====
section
/-! DEFINITION. The one operand form, the 8-bit absolute address (R53): as the address of a data byte to read, of a byte
to store, and as a jump target. No base, index, offset or extension applies (R31). -/

namespace Sys2Proof.Machine

/-- The address of the data byte that an operand names: the operand itself, direct addressing (R53). -/
def effectiveAddress (operand : Byte) : Byte := operand

/-- The data operand of LDA, ADD, OR and AND: one byte, no extension (R38, R53). -/
def State.dataOperand (s : State) (operand : Byte) : Byte := s.memRead (effectiveAddress operand)

/-- The new `pc` that the operand of JMP, JN and JZ names: absolute, not relative (R53). -/
def jumpTarget (operand : Byte) : Byte := operand

end Sys2Proof.Machine
end

