-- ==== Sys2Proof/Machine/ArithLogic.lean ====
section
/-! DEFINITION. ADD, OR, AND and NOT (R88 to R91). -/

namespace Sys2Proof.Machine

/-- R88: `acc <- acc +8 MemRead(a, 1) ; SetZN(acc)`; overflow wraps and is not reported. -/
def execAdd (addr : Byte) (s : State) : Host.Outcome State Fault Refusal :=
  s.accumulate .add (s.dataOperand addr)

/-- R89: `acc <- acc | MemRead(a, 1) ; SetZN(acc)`. -/
def execOr (addr : Byte) (s : State) : Host.Outcome State Fault Refusal :=
  s.accumulate .or (s.dataOperand addr)

/-- R90: `acc <- acc & MemRead(a, 1) ; SetZN(acc)`. -/
def execAnd (addr : Byte) (s : State) : Host.Outcome State Fault Refusal :=
  s.accumulate .and (s.dataOperand addr)

/-- R91: `acc <- ~acc ; SetZN(acc)`. The ALU's second input is unused (R73). -/
def execNot (s : State) : Host.Outcome State Fault Refusal :=
  s.accumulate .not 0x00#8

end Sys2Proof.Machine
end

