-- ==== Sys2Proof/Machine/Halt.lean ====
section
/-! DEFINITION. HLT (R95) and the optional latch that makes it terminal (R80). -/

namespace Sys2Proof.Machine

/-- `if HLT_STICKY then hlt_latched <- true` (R95, R80). -/
def State.latchHlt (s : State) : State := if s.config.hltSticky then { s with hltLatched := true } else s

/-- R95: the outcome is `Halted`, a success; HLT does not set `H`. -/
def execHlt (s : State) : Host.Outcome State Fault Refusal := s.latchHlt.complete .halted

end Sys2Proof.Machine
end

