-- ==== Sys2Proof/Machine/Jump.lean ====
section
/-! DEFINITION. JMP, JN and JZ (R92 to R94). When a jump executes, `pc` already holds the fall-through address: the
operand is fetched before the condition is looked at (R69). -/

namespace Sys2Proof.Machine

/-- `pc <- target` if the condition holds; the outcome is `Normal`, taken or not. -/
def State.jumpIf (taken : Bool) (target : Byte) (s : State) : Host.Outcome State Fault Refusal :=
  (if taken then { s with pc := target } else s).complete .normal

/-- R92: "unconditional `pc = addr`". -/
def execJmp (addr : Byte) (s : State) : Host.Outcome State Fault Refusal :=
  s.jumpIf true (jumpTarget addr)

/-- R93: "`pc = addr` only if `negative` flag set; otherwise falls through". -/
def execJn (addr : Byte) (s : State) : Host.Outcome State Fault Refusal :=
  s.jumpIf s.negative (jumpTarget addr)

/-- R94: "`pc = addr` only if `zero` flag set; otherwise falls through". -/
def execJz (addr : Byte) (s : State) : Host.Outcome State Fault Refusal :=
  s.jumpIf s.zero (jumpTarget addr)

end Sys2Proof.Machine
end

