-- ==== Sys2Proof/Machine/LoadStore.lean ====
section
/-! DEFINITION. STA and LDA (R86, R87). -/

namespace Sys2Proof.Machine

/-- R86: `MemWrite(a, 1, acc)`; the outcome reports the address and the signed value (R72). -/
def execSta (addr : Byte) (s : State) : Host.Outcome State Fault Refusal :=
  (s.memWrite (effectiveAddress addr) s.acc).complete (.write (effectiveAddress addr) s.acc.toInt)

/-- R87: `acc <- MemRead(a, 1) ; SetZN(acc)`. -/
def execLda (addr : Byte) (s : State) : Host.Outcome State Fault Refusal :=
  s.accumulate .passB (s.dataOperand addr)

end Sys2Proof.Machine
end

