-- ==== Sys2Proof/Machine/Nop.lean ====
section
/-! DEFINITION. NOP (R85). -/

namespace Sys2Proof.Machine

/-- R85: "no state change beyond pc advance", which the fetch has made. -/
def execNop (s : State) : Host.Outcome State Fault Refusal := s.complete .normal

end Sys2Proof.Machine
end

