-- ==== Sys2Proof/Machine/Dispatch.lean ====
section
/-! DEFINITION. Phase 4 of a step (R70): exactly one meaning runs, chosen by the decoded instruction. -/

namespace Sys2Proof.Machine

def exec (i : Instr) (s : State) : Host.Outcome State Fault Refusal :=
  match i with
  | .nop => Sys2Proof.Machine.execNop s
  | .sta addr => Sys2Proof.Machine.execSta addr s
  | .lda addr => Sys2Proof.Machine.execLda addr s
  | .add addr => Sys2Proof.Machine.execAdd addr s
  | .or addr => Sys2Proof.Machine.execOr addr s
  | .and addr => Sys2Proof.Machine.execAnd addr s
  | .not => Sys2Proof.Machine.execNot s
  | .jmp addr => Sys2Proof.Machine.execJmp addr s
  | .jn addr => Sys2Proof.Machine.execJn addr s
  | .jz addr => Sys2Proof.Machine.execJz addr s
  | .hlt => Sys2Proof.Machine.execHlt s

end Sys2Proof.Machine
end

