-- ==== Sys2Proof/Machine/Sequencer.lean ====
section
/-! DEFINITION. Phases 0 to 3 of a step (R65): the latch of R80, the opcode fetch, the decode and the operand fetch; and
the placing of a word where the next step fetches. -/

namespace Sys2Proof.Machine

/-- What phases 0 to 3 of a step end in. -/
inductive Fetched where
  /-- An exception, with the state written so far (R76). -/
  | raised (e : StepException) (s : State)
  /-- An instruction with the state in which it executes: `pc` is past its bytes, and `H` is set if one of them was at
  address 255. -/
  | ready (i : Instr) (s : State)
  deriving DecidableEq, Repr

/-- Phase 3 (R69): the operand byte by the same fetch path, where the mnemonic needs one; a failure is re-signalled as
`MissingArgument`. -/
def State.fetchOperand (o : Opcode) (s : State) : Fetched :=
  if o.needsOperand then
    match s.fetch with
    | none => .raised .missingArgument s
    | some (a, s') => .ready (o.withOperand a) s'
  else .ready (o.withOperand 0x00#8) s

/-- Phase 2 (R67), then phase 3. `decodeOpcode` answers one of its three errors only, the invalid byte. -/
def State.decodeFetched (b : Byte) (s : State) : Fetched :=
  match decodeOpcode s.config.opcodes b with
  | .error _ => .raised (.invalidInstruction b) s
  | .ok o => s.fetchOperand o

/-- The condition of phase 0 (R65, R80). -/
def State.hltBlocked (s : State) : Bool := s.config.hltSticky && s.hltLatched

/-- Phases 0 to 3 of `step()` (R65). -/
def State.fetchInstruction (s : State) : Fetched :=
  if s.hltBlocked then .raised .endOfProgram s
  else
    match s.fetch with
    | none => .raised .endOfProgram s
    | some (b, s') => s'.decodeFetched b

/-- `s` with bytes stored at consecutive addresses from `a`. A byte that would fall past address 255 is not stored: no
instruction spans the end of memory (R60). -/
def State.placeBytes : List Byte → Nat → State → State
  | [], _, s => s
  | b :: bs, a, s =>
    placeBytes bs (a + 1) (if a < 256 then { s with mem := s.mem.writeCell a b } else s)

/-- `s` made ready to fetch: Running (R79), with neither `H` nor the latch of R80 in the way. -/
def State.readyToFetch (s : State) : State := { s with halted := false, hltLatched := false }

end Sys2Proof.Machine
end

