-- ==== Sys2Proof/Machine/Step.lean ====
section
/-! DEFINITION. One step of the engine (R65), and the host's way to place the instruction the next step runs. -/

namespace Sys2Proof.Machine

/-- `step()` (R65): phases 0 to 3, then either the exception they ended in is the outcome or the instruction executes. -/
def step (s : State) : Host.Outcome State Fault Refusal :=
  match s.fetchInstruction with
  | .raised e s' => .next (s'.raise e)
  | .ready i s' => exec i s'

/-- `s` with the table word `w` stored where `step` fetches its next instruction, at `pc`, and the engine able to fetch.
It stands for the host's load (R133; log entry 9). -/
def State.withFetchWord (s : State) (nbits w : Nat) : State :=
  (State.placeBytes (tableWordBytes nbits w) s.pc.toNat s).readyToFetch

end Sys2Proof.Machine
end

