-- ==== Sys2Proof/Machine/RunLoop.lean ====
section
/-! DEFINITION. The loop `run()` (R77) and what the end of a run is (R96). `run()` has no step limit, so it is modelled
by its bounded unrollings (log entry 11). -/

namespace Sys2Proof.Machine

/-- What `run()` returns: `Halted`, a success, or the exception of the step that ended it (R77). -/
inductive RunEnd where
  | halted
  | exception (e : StepException)
  deriving DecidableEq, Repr

/-- Whether a step's outcome ends `run()`: `Halted` and the exceptions do; `Normal` and `Write` continue, and the report
of the write is dropped (R77). -/
def StepOutcome.runEnd : StepOutcome → Option RunEnd
  | .normal => none
  | .write _ _ => none
  | .halted => some .halted
  | .exception e => some (.exception e)

/-- How the state after a step ends `run()`, read from what that step reported. -/
def State.runEnd (t : State) : Option RunEnd := t.outcome.bind StepOutcome.runEnd

/-- `run()` (R77) cut off after at most `n` steps: the end it returned, or `none` where it has not returned yet, and the
state it left. -/
def State.runFor : Nat → State → Host.Outcome (Option RunEnd × State) Fault Refusal
  | 0, s => .next (none, s)
  | n + 1, s =>
    match step s with
    | .next t =>
      match t.runEnd with
      | some e => .next (some e, t)
      | none => runFor n t
    | .fault r => .fault r
    | .refused r => .refused r

/-- `run()` called in `s` returns `e` and leaves `t`. -/
def State.RunReturns (s : State) (e : RunEnd) (t : State) : Prop := ∃ n, s.runFor n = .next (some e, t)

/-- `run()` called in `s` never returns (R77: the document sets no step limit). -/
def State.RunsForever (s : State) : Prop := ∀ n, ∃ t, s.runFor n = .next (none, t)

end Sys2Proof.Machine
end

