-- ==== Sys2Proof/Machine/Control.lean ====
section
/-! DEFINITION. The execution-control layer, the block's debug interface (R114 to R120): breakpoints, single step, Step N
and Continue. It is host software: it adds no state to the engine, so the breakpoint set stands beside `State`, in
`Session` (R19, R114). -/

namespace Sys2Proof.Machine

/-- The breakpoint set `BP` (R114), as the list of its addresses in strictly rising unsigned order. -/
abbrev Breakpoints := List Byte

/-- The canonical form of a breakpoint set: strictly rising, so at most 256 entries and equal sets are equal lists. -/
abbrev Breakpoints.WF (bp : Breakpoints) : Prop := bp.Pairwise (fun a b => a.toNat < b.toNat)

/-- `BP <- BP + {a}` (R117). -/
def Breakpoints.insert : Breakpoints → Byte → Breakpoints
  | [], a => [a]
  | b :: bs, a =>
    if a.toNat < b.toNat then a :: b :: bs
    else if a = b then b :: bs
    else b :: insert bs a

/-- `BP <- BP - {a}` (R117). -/
def Breakpoints.remove (bp : Breakpoints) (a : Byte) : Breakpoints := bp.filter (fun b => b ≠ a)

/-- What setting or clearing a breakpoint reports: a change, or a no-op, which is not an error (R117). -/
inductive BreakpointReport where
  | changed
  | noOp
  deriving DecidableEq, Repr

/-- The engine under its control layer. -/
structure Session where
  /-- The engine's state. -/
  engine : State
  /-- The breakpoint set, "independent of CPU state lifetime" (R114). -/
  breakpoints : Breakpoints
  deriving DecidableEq, Repr

/-- A new session on an engine: the breakpoint set is empty (R114; the spec's D19, log entry 14). -/
def Session.new (s : State) : Session := { engine := s, breakpoints := [] }

/-- Breakpoint set (R117). -/
def Session.setBreakpoint (a : Byte) (c : Session) : BreakpointReport × Session :=
  if a ∈ c.breakpoints then (.noOp, c) else (.changed, { c with breakpoints := c.breakpoints.insert a })

/-- Breakpoint clear (R117). -/
def Session.clearBreakpoint (a : Byte) (c : Session) : BreakpointReport × Session :=
  if a ∈ c.breakpoints then (.changed, { c with breakpoints := c.breakpoints.remove a }) else (.noOp, c)

/-- Reset of the engine under the control layer: the breakpoint set survives (R114). -/
def Session.resetEngine (image : Memory) (c : Session) : Session :=
  { c with engine := State.resetWith c.engine.config image }

/-- Single step (R114): delegate to `step()`; the outcome is the engine's, unmodified; `BP` is not looked at. -/
def Session.singleStep (c : Session) : Host.Outcome Session Fault Refusal :=
  match step c.engine with
  | .next t => .next { c with engine := t }
  | .fault r => .fault r
  | .refused r => .refused r

/-- Why Step N or Continue stopped (R115, R116). -/
inductive StopReason where
  /-- A step reported `Halted`. -/
  | halted
  /-- A step reported an exception, which is forwarded (R110). -/
  | exception (e : StepException)
  /-- The `pc` after a step is a breakpoint address; not an error (R115). -/
  | breakpoint (a : Byte)
  deriving DecidableEq, Repr

/-- What `run()`'s end is called when Step N or Continue stops on it. -/
def RunEnd.stopReason : RunEnd → StopReason
  | .halted => .halted
  | .exception e => .exception e

/-- The three stop tests of one iteration, on the state after the step: the outcome first, then the breakpoint
(R115, the spec's D19). The breakpoint test is against the post-step `pc`, whatever the value of `H` (R118). -/
def State.stopReason (bp : Breakpoints) (t : State) : Option StopReason :=
  match t.runEnd with
  | some e => some e.stopReason
  | none => if t.pc ∈ bp then some (.breakpoint t.pc) else none

/-- The loop that Step N and Continue share, cut off after at most `n` steps (R115, R116, R120): why it stopped, or
`none` where it took all its steps, and the state it left. -/
def State.loopFor (bp : Breakpoints) : Nat → State → Host.Outcome (Option StopReason × State) Fault Refusal
  | 0, s => .next (none, s)
  | n + 1, s =>
    match step s with
    | .next t =>
      match t.stopReason bp with
      | some r => .next (some r, t)
      | none => loopFor bp n t
    | .fault r => .fault r
    | .refused r => .refused r

/-- What Step N reports (R115). -/
inductive StepNReport where
  /-- It stopped early, or at the last step, for a reason. -/
  | stopped (r : StopReason)
  /-- All the steps asked for were taken. -/
  | stepsTaken (n : Nat)
  deriving DecidableEq, Repr

/-- `StepN(n)` (R115). `StepN(0)` takes no step. -/
def Session.stepN (n : Nat) (c : Session) : Host.Outcome (StepNReport × Session) Fault Refusal :=
  match c.engine.loopFor c.breakpoints n with
  | .next (some r, t) => .next (.stopped r, { c with engine := t })
  | .next (none, t) => .next (.stepsTaken n, { c with engine := t })
  | .fault r => .fault r
  | .refused r => .refused r

/-- Continue (R116) called in `c` stops for the reason `r` and leaves `c'`: Step N with no bound. -/
def Session.ContinueStops (c : Session) (r : StopReason) (c' : Session) : Prop :=
  ∃ n t, c.engine.loopFor c.breakpoints n = .next (some r, t) ∧ c' = { c with engine := t }

/-- Continue called in `c` never stops (R116: "like `run()` it may never stop"). -/
def Session.ContinuesForever (c : Session) : Prop :=
  ∀ n, ∃ t, c.engine.loopFor c.breakpoints n = .next (none, t)

end Sys2Proof.Machine
end

