-- ==== Sys2Proof/Machine/Interface.lean ====
section
/-! DEFINITION. The block's interface at the level of whole transactions (R78), and the states a host can bring the
engine to with them. Transactions never overlap, so a session is a list of them. -/

namespace Sys2Proof.Machine

/-- The transactions of R78. `run` never returns for some programs, so it carries the number of steps after which the
model cuts it off (log entry 11). -/
inductive Transaction where
  | reset (image : Memory)
  | step
  | run (limit : Nat)
  | readPc
  | readAcc
  | readZero
  | readNegative
  | readHalted
  | memRead (a : Byte)
  | memWrite (a v : Byte)
  deriving DecidableEq, Repr

/-- The output of a transaction (R78). -/
inductive Response where
  /-- No output: `reset` and `mem_write`. -/
  | nothing
  /-- The outcome of `step`. -/
  | outcome (o : Option StepOutcome)
  /-- What `run` returned, or that it was cut off before it returned. -/
  | runEnd (e : Option RunEnd)
  /-- A byte: `read_pc`, `read_acc`, `mem_read`. -/
  | byte (b : Byte)
  /-- A flag: `read_zero`, `read_negative`, `read_halted`. -/
  | flag (b : Bool)
  deriving DecidableEq, Repr

/-- One transaction (R78). The host can write memory and nothing else (R21); `read_halted` reports the wrap condition
only, not the latch (R80). -/
def State.transact (x : Transaction) (s : State) : Host.Outcome (Response × State) Fault Refusal :=
  match x with
  | .reset image => .next (.nothing, State.resetWith s.config image)
  | .step =>
    match Machine.step s with
    | .next t => .next (.outcome t.outcome, t)
    | .fault r => .fault r
    | .refused r => .refused r
  | .run limit =>
    match s.runFor limit with
    | .next (e, t) => .next (.runEnd e, t)
    | .fault r => .fault r
    | .refused r => .refused r
  | .readPc => .next (.byte s.pc, s)
  | .readAcc => .next (.byte s.acc, s)
  | .readZero => .next (.flag s.zero, s)
  | .readNegative => .next (.flag s.negative, s)
  | .readHalted => .next (.flag s.halted, s)
  | .memRead a => .next (.byte (s.memRead a), s)
  | .memWrite a v => .next (.nothing, s.memWrite a v)

/-- A memory that a host can hand to a reset: 256 bytes (R78), in the canonical form. -/
def Transaction.WF : Transaction → Prop
  | .reset image => image.wf = true
  | _ => True

/-- The states the engine can be in: a reset under parameters that R4 allows, then any transactions of a host, pokes
among them (R43: a model that admits pokes treats each as an arbitrary `MemWrite`; log entry 10). -/
inductive Reachable : State → Prop where
  | reset (c : Config) (image : Memory) (hc : c.WF) (hm : image.wf = true) : Reachable (State.resetWith c image)
  | transact (s t : State) (x : Transaction) (r : Response) (hs : Reachable s) (hx : x.WF)
      (h : s.transact x = .next (r, t)) : Reachable t

end Sys2Proof.Machine
end

