-- ==== Sys2Proof/Machine/Loader.lean ====
section
/-! DEFINITION. The memory-image loader, the boot path (R136 to R144). Its input text is a list of characters, the
content of the UTF-8 buffer of R136 (log entry 12). -/

namespace Sys2Proof.Machine

/-! ## Comments and tokens (R137, R138) -/

/-- Comment stripping (R137): the characters from `;` up to but not including the line break are removed. The flag says
whether the text begins inside a comment. -/
def stripComments : Bool → List Char → List Char
  | _, [] => []
  | inComment, c :: cs =>
    if c = '\n' then c :: stripComments false cs
    else if inComment then stripComments true cs
    else if c = ';' then stripComments true cs
    else c :: stripComments false cs

/-- A token with the 1-based source line it stands on (R142). -/
structure Token where
  text : List Char
  line : Nat
  deriving DecidableEq, Repr

/-- The token gathered so far, if it is not empty. -/
def pendingToken (line : Nat) (text : List Char) : List Token :=
  if text = [] then [] else [{ text := text, line := line }]

/-- The tokens of stripped text, separated by whitespace (R138), from a line number and the characters of the token that
has begun. The line number counts the newlines before the token (R142). -/
def tokenizeFrom (line : Nat) (text : List Char) : List Char → List Token
  | [] => pendingToken line text
  | c :: cs =>
    if c.isWhitespace then
      pendingToken line text ++ tokenizeFrom (if c = '\n' then line + 1 else line) [] cs
    else tokenizeFrom line (text ++ [c]) cs

/-- The tokens of a source text: comments stripped, then split, lines counted from 1. -/
def tokensOf (source : List Char) : List Token := tokenizeFrom 1 [] (stripComments false source)

/-! ## Numeric tokens (R139) -/

/-- The value of a digit in a base of at most 16; hexadecimal digits in either case (R139). -/
def digitValue (base : Nat) (c : Char) : Option Nat :=
  let v :=
    if '0' ≤ c ∧ c ≤ '9' then some (c.toNat - '0'.toNat)
    else if 'a' ≤ c ∧ c ≤ 'f' then some (c.toNat - 'a'.toNat + 10)
    else if 'A' ≤ c ∧ c ≤ 'F' then some (c.toNat - 'A'.toNat + 10)
    else none
  v.bind (fun d => if d < base then some d else none)

/-- The value of a list of digits after the value `acc` of the digits before it, or `none` if one is no digit. -/
def digitsValueFrom (base acc : Nat) : List Char → Option Nat
  | [] => some acc
  | c :: cs =>
    match digitValue base c with
    | some d => digitsValueFrom base (acc * base + d) cs
    | none => none

/-- The value of a non-empty list of digits; a bare `0x` or `-` has none and is not parseable (R139, D18). -/
def digitsValue (base : Nat) : List Char → Option Nat
  | [] => none
  | c :: cs => digitsValueFrom base 0 (c :: cs)

/-- Why a token is no byte (R142). -/
inductive NumberError where
  /-- Not parseable as a number in the base that its form gives. -/
  | invalidDigit
  /-- Parses, but exceeds the 8-bit bound of its form. -/
  | outOfRange
  deriving DecidableEq, Repr

/-- A parsed magnitude against its bound, mapped to a byte. -/
def boundedByte (bound : Nat) (toByte : Nat → Byte) : Option Nat → Except NumberError Byte
  | none => .error .invalidDigit
  | some v => if v ≤ bound then .ok (toByte v) else .error .outOfRange

/-- `Number(tok)` of R139: hexadecimal after `0x` (0 to 255), signed decimal after `-` (down to -128, taken modulo 256),
else unsigned decimal (0 to 255). -/
def numberOf (tok : List Char) : Except NumberError Byte :=
  match tok with
  | '0' :: 'x' :: digits => boundedByte 255 (BitVec.ofNat 8) (digitsValue 16 digits)
  | '-' :: digits => boundedByte 128 (fun v => BitVec.ofInt 8 (-(v : Int))) (digitsValue 10 digits)
  | digits => boundedByte 255 (BitVec.ofNat 8) (digitsValue 10 digits)

/-! ## Loading (R140 to R143) -/

/-- The directive `org`: exactly the two spellings `org` and `ORG` (R138, the spec's D18; log entry 13). -/
def Token.isOrg (t : Token) : Bool := t.text == ['o', 'r', 'g'] || t.text == ['O', 'R', 'G']

/-- The three loader errors (R142). The first two carry the offending token and its line; `MemoryOverflow` carries
neither (C6). -/
inductive LoadError where
  | invalidDigit (token : List Char) (line : Nat)
  | outOfRangeInteger (token : List Char) (line : Nat)
  | memoryOverflow
  deriving DecidableEq, Repr

/-- A number's error at a token. -/
def NumberError.at (t : Token) : NumberError → LoadError
  | .invalidDigit => .invalidDigit t.text t.line
  | .outOfRange => .outOfRangeInteger t.text t.line

/-- The loader's cursor, 0 to 256, and the caller's buffer (R136, R140). -/
structure LoadState where
  cursor : Nat
  buffer : Memory
  deriving DecidableEq, Repr

/-- Loads tokens from a load state; the first argument is the `org` token that stands immediately before them, if one
does. Answers the state at the end or at the first error, with the error: bytes written before it stay (R143). An `org`
at the end of input is `InvalidDigit("org")` (R140, D18). DESIGN CHOICE: that error carries the directive as it is
spelled, so a final `ORG` gives `InvalidDigit("ORG")`: R140 and D18 write "org" for either spelling, R142 has the
offending token carried, and neither says which holds for `ORG` (log entry 13). A token that is no number fails as such
even at cursor 256: nothing is written for it (DEDUCED from R140 and R141; log entry 13). -/
def loadTokens : Option Token → List Token → LoadState → LoadState × Option LoadError
  | none, [], st => (st, none)
  | some o, [], st => (st, some (.invalidDigit o.text o.line))
  | some _, t :: ts, st =>
    match numberOf t.text with
    | .error e => (st, some (e.at t))
    | .ok v => loadTokens none ts { st with cursor := v.toNat }
  | none, t :: ts, st =>
    if t.isOrg then loadTokens (some t) ts st
    else
      match numberOf t.text with
      | .error e => (st, some (e.at t))
      | .ok v =>
        if st.cursor < 256 then
          loadTokens none ts { cursor := st.cursor + 1, buffer := st.buffer.writeCell st.cursor v }
        else (st, some .memoryOverflow)

/-- The loader (R136): a source text into a caller's buffer, the cursor at 0 (R140). It does not clear the buffer. -/
def load (source : List Char) (buffer : Memory) : LoadState × Option LoadError :=
  loadTokens none (tokensOf source) { cursor := 0, buffer := buffer }

/-- Boot (R133): load a source text into a zero-filled buffer, then reset the engine on the image. DESIGN CHOICE: a failed
load starts no engine, where R143 lets a host accept the partial image (log entry 13). -/
def boot (c : Config) (source : List Char) : Except LoadError State :=
  match load source [] with
  | (st, none) => .ok (State.resetWith c st.buffer)
  | (_, some e) => .error e

end Sys2Proof.Machine
end

