-- ==== Sys2Proof/Safety.lean ====
section
/-! DEFINITION. The terms in which the claims speak: the invariants of R18, the end of a run (R96), the control states of
R79, and which addresses a step touches (R38, R40). -/

namespace Sys2Proof

/-! ## Properties of a mnemonic -/

/-- The five instructions that write `acc` and the flags (R75). -/
def Opcode.writesFlags : Opcode → Bool
  | .lda | .add | .or | .and | .not => true
  | .nop | .sta | .jmp | .jn | .jz | .hlt => false

/-- Whether an instruction with this mnemonic, its opcode byte at `a`, has a byte at address 255 that is fetched: the
opcode byte is there, or its operand is (R35). -/
def Opcode.fetchesLastAddress (o : Opcode) (a : Byte) : Bool :=
  decide (a = 0xFF#8) || (o.needsOperand && decide (a = 0xFE#8))

/-- The number of bytes of an instruction with this mnemonic (R50). -/
def Opcode.length (o : Opcode) : Nat := if o.needsOperand then 2 else 1

end Sys2Proof

namespace Sys2Proof.Machine

/-! ## Invariants (R18) -/

/-- The invariant of every reachable state: the memory is canonical, `Z` and `N` are never both true (R18 c), the
parameters meet R4, and the latch of R20 exists only where `HLT_STICKY` is true. -/
structure State.Inv (s : State) : Prop where
  memory_canonical : s.mem.wf = true
  flags_exclusive : ¬ (s.zero = true ∧ s.negative = true)
  config_wf : s.config.WF
  no_latch_unless_sticky : s.config.hltSticky = false → s.hltLatched = false

/-- The flags describe the accumulator, as they do from the first flag-writing instruction on (R13, R14, R18). -/
def State.FlagsDescribeAcc (s : State) : Prop :=
  s.zero = (s.acc == 0x00#8) ∧ s.negative = s.acc.msb

/-! ## Control states (R79, R80) -/

/-- A step that begins here fails with `EndOfProgram` and changes nothing: `H` is set (R79, Ended), or the latch of R80
is (Halted-by-HLT). -/
abbrev State.Blocked (s : State) : Prop := s.halted = true ∨ (s.config.hltSticky = true ∧ s.hltLatched = true)

/-- The opcode that a step from here fetches and decodes, if it selects one (R66, R67). -/
def State.nextOpcode (s : State) : Option Opcode := s.config.opcodes.lookup (highNibble (s.memRead s.pc))

/-- The state in which an instruction with this mnemonic executes, its opcode byte at `pc`: `pc` past its bytes, `H` set if
one of them was at 255 (R65, R69). -/
def State.afterFetch (s : State) (o : Opcode) : State :=
  { s with pc := s.pc + BitVec.ofNat 8 o.length, halted := s.halted || o.fetchesLastAddress s.pc }

/-! ## Runs (R96) -/

/-- A run ends successfully: `run()` returns `Halted`. -/
def State.EndsSuccessfully (s : State) : Prop := ∃ t, s.RunReturns .halted t

/-- A run ends unsuccessfully: `run()` returns an exception. -/
def State.EndsInException (s : State) : Prop := ∃ e t, s.RunReturns (.exception e) t

/-- The state after `n` steps, whatever they report; `none` after a fault or a refusal. -/
def State.after : Nat → State → Option State
  | 0, s => some s
  | n + 1, s => (nextOf (step s)).bind (after n)

/-! ## What two states share -/

/-- The two states differ in nothing but what the latest step reported (R19). -/
def State.SameButOutcome (s t : State) : Prop := { s with outcome := none } = { t with outcome := none }

/-- The two states differ in nothing but the memory, and there only at the addresses of `P`. -/
def State.AgreeOutside (P : Byte → Prop) (s t : State) : Prop :=
  { s with mem := [] } = { t with mem := [] } ∧ ∀ a, ¬ P a → s.memRead a = t.memRead a

/-- The address is one of those that the instruction at `pc` reads: its opcode byte, its operand byte where it has one,
and its data byte where it reads one (R38, R40). -/
def State.Reads (s : State) (a : Byte) : Prop :=
  a = s.pc ∨
    (∃ o, s.nextOpcode = some o ∧ o.needsOperand = true ∧
      (a = s.pc + 1#8 ∨ ((o = .lda ∨ o = .add ∨ o = .or ∨ o = .and) ∧ a = s.memRead (s.pc + 1#8))))

/-! ## Image source texts -/

/-- The hexadecimal digit of a nibble. -/
def hexDigit (n : Nibble) : Char :=
  if n.toNat < 10 then Char.ofNat ('0'.toNat + n.toNat) else Char.ofNat ('A'.toNat + (n.toNat - 10))

/-- A byte as a numeric token of R139, `0x` and two digits. -/
def hexToken (b : Byte) : List Char := ['0', 'x', hexDigit (highNibble b), hexDigit (lowNibble b)]

/-- A loader source text that writes the given bytes from the cursor on: one token each, a blank after each. -/
def sourceOf (bytes : List Byte) : List Char := bytes.flatMap (fun b => hexToken b ++ [' '])

end Sys2Proof.Machine
end

