-- ==== Sys2Proof/Certificates/Slice0/Obligations.lean ====
section
/-! DEFINITION. The statements for the provers. Each docstring names the rules of `spec/` that the statement formalises
or rests on. A witness for each statement with hypotheses is in `Tests/Slice0.lean`. -/

section

open Sys2Proof Sys2Proof.Machine

/-! ## The eleven instructions: result, flags, outcome and frame, in every state -/

/-- NOP completes in every state and changes nothing but the report (R85). -/
def Obligations.NopChangesNothing : Prop :=
  ∀ s : State, ∃ t, exec .nop s = .next t ∧
    t.outcome = some .normal ∧
    t.pc = s.pc ∧ t.acc = s.acc ∧ t.zero = s.zero ∧ t.negative = s.negative ∧ t.halted = s.halted ∧
    (∀ b, t.memRead b = s.memRead b) ∧ t.hltLatched = s.hltLatched ∧ t.config = s.config

/-- STA completes in every state: the byte at its address becomes `acc`, every other byte, both registers and the flags
stay, and the report is the write with the signed value (R86, R72). The byte stored is read back where the memory has
its canonical form, which every reachable state's has (`EveryReachableStateKeepsTheInvariant`). -/
def Obligations.StaStoresAccAndReportsTheWrite : Prop :=
  ∀ (s : State) (addr : Byte), ∃ t, exec (.sta addr) s = .next t ∧
    (s.mem.wf = true → t.memRead (effectiveAddress addr) = s.acc) ∧
    (∀ a, effectiveAddress addr = a → ∀ b, b ≠ a → t.memRead b = s.memRead b) ∧
    effectiveAddress addr = addr ∧
    t.outcome = some (.write addr s.acc.toInt) ∧
    t.pc = s.pc ∧ t.acc = s.acc ∧ t.zero = s.zero ∧ t.negative = s.negative ∧ t.halted = s.halted ∧
    t.hltLatched = s.hltLatched ∧ t.config = s.config

/-- LDA completes in every state: `acc` becomes the byte at its address, `Z` and `N` describe it, and nothing else
changes, `H` not even for address 255 (R87). -/
def Obligations.LdaLoadsTheByteAndSetsFlags : Prop :=
  ∀ (s : State) (addr : Byte), ∃ t, exec (.lda addr) s = .next t ∧
    t.acc = s.memRead addr ∧
    (t.zero = true ↔ s.memRead addr = 0x00#8) ∧ (t.negative = true ↔ (s.memRead addr).toInt < 0) ∧
    t.outcome = some .normal ∧
    t.pc = s.pc ∧ t.halted = s.halted ∧ (∀ b, t.memRead b = s.memRead b) ∧
    t.hltLatched = s.hltLatched ∧ t.config = s.config

/-- ADD completes in every state: `acc` becomes the sum modulo 256, which as a signed number is the signed sum brought
back into -128..127; `Z` and `N` describe it; overflow changes nothing else (R88). -/
def Obligations.AddWrapsAndSetsFlags : Prop :=
  ∀ (s : State) (addr : Byte), ∃ t, exec (.add addr) s = .next t ∧
    t.acc.toNat = (s.acc.toNat + (s.memRead addr).toNat) % 256 ∧
    t.acc.toInt = (s.acc.toInt + (s.memRead addr).toInt).bmod 256 ∧
    (t.zero = true ↔ t.acc.toInt = 0) ∧ (t.negative = true ↔ t.acc.toInt < 0) ∧
    t.outcome = some .normal ∧
    t.pc = s.pc ∧ t.halted = s.halted ∧ (∀ b, t.memRead b = s.memRead b) ∧
    t.hltLatched = s.hltLatched ∧ t.config = s.config

/-- OR completes in every state: each bit of `acc` becomes the or of the old bit and the memory bit; `Z` and `N` describe
the result; `Z` only where both bytes are zero (R89). -/
def Obligations.OrCombinesBitsAndSetsFlags : Prop :=
  ∀ (s : State) (addr : Byte), ∃ t, exec (.or addr) s = .next t ∧
    (∀ k, k < 8 → t.acc.getLsbD k = (s.acc.getLsbD k || (s.memRead addr).getLsbD k)) ∧
    (t.zero = true ↔ s.acc = 0x00#8 ∧ s.memRead addr = 0x00#8) ∧ (t.negative = true ↔ t.acc.toInt < 0) ∧
    t.outcome = some .normal ∧
    t.pc = s.pc ∧ t.halted = s.halted ∧ (∀ b, t.memRead b = s.memRead b) ∧
    t.hltLatched = s.hltLatched ∧ t.config = s.config

/-- AND completes in every state: each bit of `acc` becomes the and of the old bit and the memory bit; `Z` and `N`
describe the result (R90). -/
def Obligations.AndCombinesBitsAndSetsFlags : Prop :=
  ∀ (s : State) (addr : Byte), ∃ t, exec (.and addr) s = .next t ∧
    (∀ k, k < 8 → t.acc.getLsbD k = (s.acc.getLsbD k && (s.memRead addr).getLsbD k)) ∧
    (t.zero = true ↔ t.acc = 0x00#8) ∧ (t.negative = true ↔ t.acc.toInt < 0) ∧
    t.outcome = some .normal ∧
    t.pc = s.pc ∧ t.halted = s.halted ∧ (∀ b, t.memRead b = s.memRead b) ∧
    t.hltLatched = s.hltLatched ∧ t.config = s.config

/-- NOT completes in every state: every bit of `acc` is inverted, which is 255 - u(acc) and -s(acc) - 1; `Z` and `N`
describe the result, so `N` becomes the inverse of the old sign (R91). -/
def Obligations.NotComplementsAndSetsFlags : Prop :=
  ∀ s : State, ∃ t, exec .not s = .next t ∧
    t.acc.toNat = 255 - s.acc.toNat ∧ t.acc.toInt = - s.acc.toInt - 1 ∧
    (t.zero = true ↔ s.acc = 0xFF#8) ∧ t.negative = !s.acc.msb ∧
    t.outcome = some .normal ∧
    t.pc = s.pc ∧ t.halted = s.halted ∧ (∀ b, t.memRead b = s.memRead b) ∧
    t.hltLatched = s.hltLatched ∧ t.config = s.config

/-- JMP completes in every state: `pc` becomes the operand, nothing else changes (R92). -/
def Obligations.JmpLoadsPc : Prop :=
  ∀ (s : State) (addr : Byte), ∃ t, exec (.jmp addr) s = .next t ∧
    t.pc = addr ∧ t.outcome = some .normal ∧
    t.acc = s.acc ∧ t.zero = s.zero ∧ t.negative = s.negative ∧ t.halted = s.halted ∧
    (∀ b, t.memRead b = s.memRead b) ∧ t.hltLatched = s.hltLatched ∧ t.config = s.config

/-- JN completes in every state, taken or not: `pc` becomes the operand exactly if `N` is set, else it keeps the
fall-through address; nothing else changes (R93). -/
def Obligations.JnLoadsPcIfNegative : Prop :=
  ∀ (s : State) (addr : Byte), ∃ t, exec (.jn addr) s = .next t ∧
    (s.negative = true → t.pc = addr) ∧ (s.negative = false → t.pc = s.pc) ∧ t.outcome = some .normal ∧
    t.acc = s.acc ∧ t.zero = s.zero ∧ t.negative = s.negative ∧ t.halted = s.halted ∧
    (∀ b, t.memRead b = s.memRead b) ∧ t.hltLatched = s.hltLatched ∧ t.config = s.config

/-- JZ completes in every state, taken or not: `pc` becomes the operand exactly if `Z` is set, whatever `acc` holds, else
it keeps the fall-through address; nothing else changes (R94). -/
def Obligations.JzLoadsPcIfZeroFlag : Prop :=
  ∀ (s : State) (addr : Byte), ∃ t, exec (.jz addr) s = .next t ∧
    (s.zero = true → t.pc = addr) ∧ (s.zero = false → t.pc = s.pc) ∧ t.outcome = some .normal ∧
    t.acc = s.acc ∧ t.zero = s.zero ∧ t.negative = s.negative ∧ t.halted = s.halted ∧
    (∀ b, t.memRead b = s.memRead b) ∧ t.hltLatched = s.hltLatched ∧ t.config = s.config

/-- HLT completes in every state and reports `Halted`; it does not set `H`, and with `HLT_STICKY = false` it changes
nothing; with `HLT_STICKY = true` it sets the latch and changes nothing else (R95; the parameter is the spec's D2, log
entry 2). -/
def Obligations.HltReportsHalted : Prop :=
  ∀ s : State, ∃ t, exec .hlt s = .next t ∧
    t.outcome = some .halted ∧
    (s.config.hltSticky = false → t.hltLatched = s.hltLatched) ∧ (s.config.hltSticky = true → t.hltLatched = true) ∧
    t.pc = s.pc ∧ t.acc = s.acc ∧ t.zero = s.zero ∧ t.negative = s.negative ∧ t.halted = s.halted ∧
    (∀ b, t.memRead b = s.memRead b) ∧ t.config = s.config

/-! ## The shared operations -/

/-- `SetZN` clears both flags, then sets `Z` if the result is 0, else `N` if it is negative; never both; a positive
nonzero result leaves both clear; the old flags are not read and nothing else changes; and LDA, ADD, OR, AND and NOT all
apply it to the result they leave in `acc` (R74). -/
def Obligations.SetZNDescribesTheResult : Prop :=
  (∀ (s : State) (v : Byte),
    ((s.setZN v).zero = true ↔ v.toInt = 0) ∧ ((s.setZN v).negative = true ↔ v.toInt < 0) ∧
    (s.setZN v).negative = v.getLsbD 7 ∧
    ¬ ((s.setZN v).zero = true ∧ (s.setZN v).negative = true) ∧
    (0 < v.toInt → (s.setZN v).zero = false ∧ (s.setZN v).negative = false) ∧
    (∀ z n, ({ s with zero := z, negative := n } : State).setZN v = s.setZN v) ∧
    (∃ z n, s.setZN v = { s with zero := z, negative := n })) ∧
  (∀ (i : Instr) (s t : State), i.opcode ∈ [.lda, .add, .or, .and, .not] → exec i s = .next t →
    t = (({ s with acc := t.acc } : State).setZN t.acc).report .normal)

/-- `Fetch()` fails exactly where `H` is set; otherwise it gives the byte at `pc`, advances `pc` by 1 modulo 256, sets `H`
if the address was 255 and changes nothing else; a failed opcode fetch makes the step end in `EndOfProgram` and a failed
operand fetch in `MissingArgument`; the byte fetched at 255 is still used, so a one-byte instruction there executes
(R34). -/
def Obligations.FetchAdvancesAndDetectsTheWrap : Prop :=
  (∀ s : State, s.halted = true → s.fetch = none ∧ step s = .next (s.raise .endOfProgram)) ∧
  (∀ s : State, s.halted = false → ∃ t, s.fetch = some (s.memRead s.pc, t) ∧
    t.pc.toNat = (s.pc.toNat + 1) % 256 ∧ (t.halted = true ↔ s.pc = 0xFF#8) ∧
    t.acc = s.acc ∧ t.zero = s.zero ∧ t.negative = s.negative ∧ t.mem = s.mem ∧ t.hltLatched = s.hltLatched ∧
    t.config = s.config ∧ t.outcome = s.outcome) ∧
  (∀ (s s' : State) (b : Byte) (o : Opcode), s.hltBlocked = false → s.fetch = some (b, s') →
    s.config.opcodes.lookup (highNibble b) = some o → o.needsOperand = true → s'.fetch = none →
    step s = .next (s'.raise .missingArgument)) ∧
  (∀ (s : State) (o : Opcode), ¬ s.Blocked → s.pc = 0xFF#8 →
    s.config.opcodes.lookup (highNibble (s.memRead 0xFF#8)) = some o → o.needsOperand = false →
    step s = exec (o.withOperand 0x00#8) { s with pc := 0x00#8, halted := true })

/-- Two canonical memories that read the same at all 256 addresses are equal data (the model's choice of form, log
entry 5; R17). -/
def Obligations.CanonicalMemoriesAreExtensional : Prop :=
  ∀ m m' : Memory, m.wf = true → m'.wf = true → (∀ a : Byte, m.readCell a.toNat = m'.readCell a.toNat) → m = m'

/-- Reset with an `IMAGE` leaves a canonical memory that holds the image's byte at every address, whatever the image
(R22; the zero fill under a loaded image is the spec's D5, log entry 5). -/
def Obligations.ResetMemoryHoldsTheImage : Prop :=
  ∀ (c : Config) (image : Byte → Byte),
    (State.resetWith c (Memory.ofImage image)).mem.wf = true ∧
    ∀ a, (State.resetWith c (Memory.ofImage image)).memRead a = image a

/-- Reset: `pc` is 0, `H` and the latch are clear, `acc`, `Z` and `N` are the reset parameters, and with the defaults
`acc` is 0 with both flags clear and every byte of memory 0 (R22, R131; the defaults are the spec's D3, D4 and D5, log
entries 3 to 5). -/
def Obligations.ResetValues : Prop :=
  (∀ (c : Config) (image : Memory),
    (State.resetWith c image).pc = 0x00#8 ∧ (State.resetWith c image).halted = false ∧
    (State.resetWith c image).hltLatched = false ∧ (State.resetWith c image).acc = c.resetAcc ∧
    (State.resetWith c image).zero = c.resetZero ∧ (State.resetWith c image).negative = c.resetNegative ∧
    (State.resetWith c image).mem = image) ∧
  State.reset.acc = 0x00#8 ∧ State.reset.zero = false ∧ State.reset.negative = false ∧
  State.reset.config.hltSticky = false ∧ ∀ a, State.reset.memRead a = 0x00#8

/-! ## Encoding -/

/-- The default opcode map reads a word of each of the table's rows, low nibble ignored, refuses unused high nibbles, and
misses an operand that is not there (R55: the numbers are from general knowledge, PRESUMED, log entry 1). That a refused
byte is reported whole, low nibble included, is the spec's D15 (R56, R102; log entry 16). That a list which ends before
the operand gives the missing argument, which R69 and R103 raise where the operand's fetch fails, is the model's choice
(log entry 23). -/
def Obligations.DefaultMapReadsTheTable : Prop :=
  decode [0x0B#8] = .ok (.nop, []) ∧ decode [0x10#8, 0x05#8] = .ok (.sta 0x05#8, []) ∧
  decode [0x2F#8, 0x80#8] = .ok (.lda 0x80#8, []) ∧ decode [0x31#8, 0x81#8] = .ok (.add 0x81#8, []) ∧
  decode [0x48#8, 0x40#8] = .ok (.or 0x40#8, []) ∧ decode [0x5A#8, 0x41#8] = .ok (.and 0x41#8, []) ∧
  decode [0x66#8] = .ok (.not, []) ∧ decode [0x8E#8, 0xFF#8] = .ok (.jmp 0xFF#8, []) ∧
  decode [0x99#8, 0x06#8] = .ok (.jn 0x06#8, []) ∧ decode [0xA5#8, 0x0A#8] = .ok (.jz 0x0A#8, []) ∧
  decode [0xF5#8] = .ok (.hlt, []) ∧ decode [0x7C#8] = .error (.invalidInstruction 0x7C#8) ∧
  decode [0xEF#8] = .error (.invalidInstruction 0xEF#8) ∧ decode [0x20#8] = .error .missingArgument

/-- DECODE AND ENCODE AGREE: under every admissible opcode map, with any low nibble and whatever bytes follow, decoding an
encoded instruction gives it back and leaves the bytes that follow (R50 to R57, R59). -/
def Obligations.DecodeInvertsEncode : Prop :=
  ∀ (m : OpcodeMap), m.Admissible → ∀ (i : Instr) (x : Nibble) (rest : List Byte),
    decodeWith m (encodeWith m x i ++ rest) = .ok (i, rest)

/-- No bit is dropped: what a map decodes, it encodes back to the very bytes consumed, with the low nibble that stood
there (R51 to R53). -/
def Obligations.EncodeInvertsDecode : Prop :=
  ∀ (m : OpcodeMap) (b : Byte) (bytes rest : List Byte) (i : Instr),
    decodeWith m (b :: bytes) = .ok (i, rest) → encodeWith m (lowNibble b) i ++ rest = b :: bytes

/-- The decoder looks at the `op` field and nothing else and selects one of the eleven instructions or refuses the byte by
name; the eight of the list take an operand and the other three none; and of the 16 values exactly 11 select an
instruction and 5 are invalid, under every admissible map (R54). That each mnemonic has exactly one `op` value is R55's
condition on a map (the spec's D1, log entry 1); that the refusal carries the whole byte is R56 (the spec's D15, log
entry 16). -/
def Obligations.DecoderSelectsByHighNibble : Prop :=
  (∀ (m : OpcodeMap) (b b' : Byte), highNibble b = highNibble b' →
    ∀ o, decodeOpcode m b = .ok o ↔ decodeOpcode m b' = .ok o) ∧
  (∀ (m : OpcodeMap) (b : Byte), (∀ o, decodeOpcode m b ≠ .ok o) → decodeOpcode m b = .error (.invalidInstruction b)) ∧
  (∀ (m : OpcodeMap), m.Admissible → ∀ o, ∃ op, ∀ b, highNibble b = op ↔ decodeOpcode m b = .ok o) ∧
  (∀ o : Opcode, o.needsOperand = true ↔ o ∈ [.sta, .lda, .add, .or, .and, .jmp, .jn, .jz]) ∧
  (∀ (m : OpcodeMap), m.Admissible →
    (Finset.univ.filter (fun op : Fin 16 => (m.lookup (BitVec.ofFin op)).isSome)).card = 11 ∧
    (Finset.univ.filter (fun op : Fin 16 => m.lookup (BitVec.ofFin op) = none)).card = 5)

/-! ## The step -/

/-- A STEP RUNS THE DECODED INSTRUCTION: where nothing blocks the step and the bytes at `pc` decode to an instruction that
fits there, the step is the instruction executed with `pc` past its bytes and `H` set exactly if its last byte is at 255
(R65, R66, R69, R70). -/
def Obligations.StepRunsTheDecodedInstruction : Prop :=
  ∀ (s : State) (i : Instr) (rest : List Byte), ¬ s.Blocked →
    decodeWith s.config.opcodes [s.memRead s.pc, s.memRead (s.pc + 1#8)] = .ok (i, rest) → i.FitsAt s.pc →
    step s = exec i { s with
      pc := s.pc + BitVec.ofNat 8 i.length
      halted := decide (s.pc.toNat + i.length = 256) }

/-- Under every admissible opcode map, where the encoding of an instruction, with any low nibble, stands at `pc` and fits
there, an unblocked step executes that instruction, with `pc` past its bytes and `H` set exactly if its last byte is at
255 (R65, R55, R57). -/
def Obligations.StepRunsTheEncodedInstruction : Prop :=
  ∀ (s : State) (i : Instr) (x : Nibble), s.config.opcodes.Admissible → ¬ s.Blocked → i.FitsAt s.pc →
    (∀ (k : Nat) (b : Byte), (encodeWith s.config.opcodes x i)[k]? = some b →
      s.memRead (s.pc + BitVec.ofNat 8 k) = b) →
    step s = exec i { s with
      pc := s.pc + BitVec.ofNat 8 i.length
      halted := decide (s.pc.toNat + i.length = 256) }

/-- Placing a word of the opcode table makes the next step run the instruction that the decoder reads from it, wherever
it fits, under the default map. The state it runs in is fixed: the word's first byte stands at the old `pc`, its second
after it unless the first is at 255, every other byte is as before, and neither `H` nor the latch was in the way (the
host's load, log entry 9; R133). -/
def Obligations.PlacedWordRuns : Prop :=
  ∀ (s : State) (nbits w : Nat) (i : Instr), s.config.opcodes = OpcodeMap.classic → s.mem.wf = true →
    decodeTableWord nbits w = some i → i.FitsAt s.pc →
    ∃ t, t.pc = s.pc + BitVec.ofNat 8 i.length ∧ t.acc = s.acc ∧ t.zero = s.zero ∧ t.negative = s.negative ∧
      t.halted = decide (s.pc.toNat + i.length = 256) ∧ t.hltLatched = false ∧ t.config = s.config ∧
      t.mem.wf = true ∧ t.memRead s.pc = BitVec.ofNat 8 (w % 2 ^ nbits) ∧
      (s.pc ≠ 0xFF#8 → t.memRead (s.pc + 1#8) = BitVec.ofNat 8 (w % 2 ^ nbits / 256)) ∧
      (∀ b, b ≠ s.pc → (s.pc ≠ 0xFF#8 → b ≠ s.pc + 1#8) → t.memRead b = s.memRead b) ∧
      step (s.withFetchWord nbits w) = exec i t

/-- Every step reports exactly one outcome. A completed instruction reports `Halted` exactly if it is HLT, a write exactly
if it is STA, with a value from -128 to 127, and `Normal` otherwise. What a step does never depends on what the step
before it reported (R71). -/
def Obligations.EveryStepReportsOneOutcome : Prop :=
  (∀ s : State, ∃ t o, step s = .next t ∧ t.outcome = some o) ∧
  (∀ (i : Instr) (s t : State), exec i s = .next t →
    (t.outcome = some .halted ↔ i = .hlt) ∧
    ((∃ a v, t.outcome = some (.write a v)) ↔ ∃ a, i = .sta a) ∧
    (∀ a v, t.outcome = some (.write a v) → -128 ≤ v ∧ v ≤ 127) ∧
    (t.outcome = some .normal ↔
      i.opcode ∈ [.nop, .lda, .add, .or, .and, .not, .jmp, .jn, .jz])) ∧
  (∀ (s : State) (o : Option StepOutcome), step { s with outcome := o } = step s)

/-! ## Exceptions -/

/-- Where `H` is set, this step and every later one ends in `EndOfProgram` and changes nothing, whatever stands in memory;
a reset clears `H` (R101). -/
def Obligations.EndOfProgramRepeatsUntilReset : Prop :=
  (∀ s : State, s.halted = true → ∀ n, s.after (n + 1) = some (s.raise .endOfProgram)) ∧
  (∀ (c : Config) (image : Memory), (State.resetWith c image).halted = false)

/-- A fetched byte whose high nibble selects no instruction ends the step in `InvalidInstruction` with that byte: `pc` is
past it, `H` is set if it was at 255, nothing else has changed. The low nibble has no part in it (R67). -/
def Obligations.InvalidOpcodeEndsTheStep : Prop :=
  (∀ s : State, ¬ s.Blocked → s.config.opcodes.lookup (highNibble (s.memRead s.pc)) = none →
    step s = .next { s with
      pc := s.pc + 1#8
      halted := decide (s.pc = 0xFF#8)
      outcome := some (.exception (.invalidInstruction (s.memRead s.pc))) }) ∧
  (∀ (m : OpcodeMap) (op x x' : Nibble) (o : Opcode),
    decodeOpcode m (opcodeByte op x) = .ok o → decodeOpcode m (opcodeByte op x') = .ok o)

/-- The three exceptions: each is reported exactly under its condition and leaves exactly the state its row gives; no
instruction's own operation raises one; and after any of them the machine can be stepped again (R100; blocking by the
latch of R80 is the parameter `HLT_STICKY`). -/
def Obligations.ThreeExceptionsUnderTheirConditions : Prop :=
  (∀ (i : Instr) (s t : State) (e : StepException), exec i s = .next t → t.outcome ≠ some (.exception e)) ∧
  (∀ s t : State, step s = .next t →
    ((t.outcome = some (.exception .endOfProgram) ↔ s.Blocked) ∧
     (t.outcome = some (.exception .endOfProgram) → t = { s with outcome := t.outcome })) ∧
    (∀ b,
      (t.outcome = some (.exception (.invalidInstruction b)) ↔
        ¬ s.Blocked ∧ s.nextOpcode = none ∧ b = s.memRead s.pc) ∧
      (t.outcome = some (.exception (.invalidInstruction b)) →
        t = { s with pc := s.pc + 1#8, halted := decide (s.pc = 0xFF#8), outcome := t.outcome })) ∧
    ((t.outcome = some (.exception .missingArgument) ↔
        ¬ s.Blocked ∧ s.pc = 0xFF#8 ∧ ∃ o, s.nextOpcode = some o ∧ o.needsOperand = true) ∧
     (t.outcome = some (.exception .missingArgument) →
        t = { s with pc := 0x00#8, halted := true, outcome := t.outcome })) ∧
    ∃ u, step t = .next u)

/-- `H` is set exactly by a fetch at 255, as opcode or as operand, whatever the instruction; once set it stays, and every
fetch while it is set fails, so every step ends in `EndOfProgram` and changes nothing; only a reset clears it; no
instruction's execution, HLT's included, and no `SetZN` touches it (R15). -/
def Obligations.HaltedTracksFetchesAtLastAddress : Prop :=
  (∀ s t : State, step s = .next t →
    (t.halted = true ↔ s.halted = true ∨ (¬ s.Blocked ∧
      (s.pc = 0xFF#8 ∨ (s.pc = 0xFE#8 ∧ ∃ o, s.nextOpcode = some o ∧ o.needsOperand = true))))) ∧
  (∀ s : State, s.halted = true → s.fetch = none ∧
    step s = .next { s with outcome := some (.exception .endOfProgram) }) ∧
  (∀ (c : Config) (image : Memory), (State.resetWith c image).halted = false) ∧
  (∀ (i : Instr) (s t : State), exec i s = .next t → t.halted = s.halted) ∧
  (∀ (s : State) (v : Byte), (s.setZN v).halted = s.halted)

/-- HLT is not terminal with `HLT_STICKY = false`: the step after it is blocked only if the HLT byte was at 255. With
`HLT_STICKY = true` every step after it fails with `EndOfProgram` and changes nothing, and `H` still reports only the
wrap (R79, R80, R95; the parameter and its two meanings are the spec's D2 and D23, log entry 2). -/
def Obligations.HltIsTerminalExactlyIfSticky : Prop :=
  ∀ s t : State, s.nextOpcode = some .hlt → ¬ s.Blocked → step s = .next t →
    t.outcome = some .halted ∧ (t.halted = true ↔ s.pc = 0xFF#8) ∧
    (s.config.hltSticky = false → (t.Blocked ↔ s.pc = 0xFF#8)) ∧
    (s.config.hltSticky = true → ∀ n, t.after (n + 1) = some (t.raise .endOfProgram))

/-! ## Invariants and whole-machine rules -/

/-- AN INVARIANT THAT EVERY STEP KEEPS: canonical memory, `Z` and `N` never both true, legal parameters, no latch unless
`HLT_STICKY` (R18). -/
def Obligations.StepKeepsTheInvariant : Prop :=
  ∀ s t : State, s.Inv → step s = .next t → t.Inv

/-- The invariant holds at every reset with parameters that R4 allows and a canonical image, the default reset among them
(R22; the parameters' values are the spec's D4 and D5, log entries 3 and 5). -/
def Obligations.ResetMeetsTheInvariant : Prop :=
  State.reset.Inv ∧ ∀ (c : Config) (image : Memory), c.WF → image.wf = true → (State.resetWith c image).Inv

/-- Every state that a host can bring the engine to, by resets, steps, runs, reads and arbitrary writes to memory, meets
the invariant (R18; that the host may write memory between steps is the spec's D9, log entry 10). -/
def Obligations.EveryReachableStateKeepsTheInvariant : Prop := ∀ s : State, Reachable s → s.Inv

/-- From the first flag-writing instruction on the flags describe the accumulator: a step that completes such an
instruction makes them do so whatever they were, and every step keeps it (R18). -/
def Obligations.FlagsDescribeAccFromTheFirstFlagWrite : Prop :=
  ∀ s t : State, step s = .next t →
    (s.FlagsDescribeAcc → t.FlagsDescribeAcc) ∧
    (∀ o, s.nextOpcode = some o → o.writesFlags = true → t.outcome = some .normal → t.FlagsDescribeAcc)

/-- Only a completed LDA, ADD, OR, AND or NOT changes `acc`, `Z` or `N`: no jump, store, NOP or HLT and no failed step
does (R75, R18). -/
def Obligations.OnlyFlagWritersChangeAccAndFlags : Prop :=
  ∀ s t : State, step s = .next t → (t.acc ≠ s.acc ∨ t.zero ≠ s.zero ∨ t.negative ≠ s.negative) →
    ¬ s.Blocked ∧ t.outcome = some .normal ∧ ∃ o, s.nextOpcode = some o ∧ o.writesFlags = true

/-- The `Write` report lets a host observe every store: a byte that a step changes is the byte the report names, it
becomes `acc`, and the report gives its signed value (R119, R33; in a canonical memory, as every reachable state's is). -/
def Obligations.EveryMemoryChangeIsReported : Prop :=
  ∀ (s t : State) (b : Byte), s.mem.wf = true → step s = .next t → t.memRead b ≠ s.memRead b →
    t.outcome = some (.write b s.acc.toInt) ∧ t.memRead b = s.acc

/-- A step is local: two states that differ only in memory, and there only at addresses the step does not read, are
taken to states that again differ only in memory and only at those addresses, with the same report (R38, R40). -/
def Obligations.StepDependsOnlyOnWhatItReads : Prop :=
  ∀ (P : Byte → Prop) (s t s' t' : State), s.AgreeOutside P t → (∀ a, s.Reads a → ¬ P a) →
    s.mem.wf = true → t.mem.wf = true →
    step s = .next s' → step t = .next t' → s'.AgreeOutside P t'

/-- Self-modifying code works: the byte a STA stores at the address of the next instruction is the byte the next step
fetches (R42, R151), and one that selects no instruction is reported as invalid by that step (R67). That the report
carries the whole byte, low nibble included, is the spec's D15 (R56, R102; log entry 16). -/
def Obligations.StoreIsSeenByTheNextFetch : Prop :=
  ∀ (s t : State), s.mem.wf = true → exec (.sta s.pc) s = .next t → ¬ t.Blocked →
    (∃ u, t.fetch = some (s.acc, u)) ∧
    (s.config.opcodes.lookup (highNibble s.acc) = none →
      ∃ u, step t = .next u ∧ u.outcome = some (.exception (.invalidInstruction s.acc)))

/-! ## The run loop -/

/-- `run()` returns at the first step that reports `Halted` or an exception, with that report and the state right after
it, and not on `Normal` or a write; it never returns exactly if no step reports one, and so where no step executes HLT,
fetches address 255 or meets an invalid opcode; after the end of memory it returns `EndOfProgram` and never `Halted`; and
whatever it left can be stepped again (R77). -/
def Obligations.RunReturnsAtTheFirstEnd : Prop :=
  (∀ (s t : State) (e : RunEnd), s.RunReturns e t ↔
    ∃ n, s.after (n + 1) = some t ∧ t.runEnd = some e ∧
      ∀ k, k < n → ∃ u, s.after (k + 1) = some u ∧ u.runEnd = none) ∧
  (∀ s : State, s.RunsForever ↔ ∀ n, ∃ u, s.after (n + 1) = some u ∧ u.runEnd = none) ∧
  (∀ s : State, ¬ s.Blocked →
    (∀ n u, s.after n = some u → ∃ o, u.nextOpcode = some o ∧ o ≠ .hlt ∧ o.fetchesLastAddress u.pc = false) →
    s.RunsForever) ∧
  (∀ t : State, (t.runEnd = some .halted ↔ t.outcome = some .halted) ∧
    ∀ e, t.runEnd = some (.exception e) ↔ t.outcome = some (.exception e)) ∧
  (∀ s : State, s.halted = true → ∀ e t, s.RunReturns e t ↔
    e = .exception .endOfProgram ∧ t = s.raise .endOfProgram) ∧
  (∀ t : State, ∃ u, step t = .next u)

/-- A program that never executes a jump ends: within 257 steps `run()` has returned, by HLT, by an exception or by
running off the end of memory (R134, R77). What counts is the jumps that `run()` would execute: those next in an unblocked
state that it reaches before its first end. A jump's byte at `pc` once `H` is set, or behind an HLT, is no matter. -/
def Obligations.JumpFreeRunsEndWithin257Steps : Prop :=
  ∀ s : State,
    (∀ n u o, s.after n = some u → (∀ k, k < n → ∃ v, s.after (k + 1) = some v ∧ v.runEnd = none) → ¬ u.Blocked →
      u.nextOpcode = some o → o ≠ .jmp ∧ o ≠ .jn ∧ o ≠ .jz) →
    ∃ e t, s.runFor 257 = .next (some e, t)

/-- `run()`, Step N and Continue are one loop: `run()` is it with an empty breakpoint set, Step N is it with a bound, and
Continue is it without one (R120). -/
def Obligations.RunStepNAndContinueAreOneLoop : Prop :=
  (∀ (n : Nat) (s t : State) (e : RunEnd),
    s.runFor n = .next (some e, t) ↔ s.loopFor [] n = .next (some e.stopReason, t)) ∧
  (∀ (n : Nat) (s t : State), s.runFor n = .next (none, t) ↔ s.loopFor [] n = .next (none, t)) ∧
  (∀ (c c' : Session) (r : StopReason),
    c.ContinueStops r c' ↔ ∃ n, c.stepN n = .next (.stopped r, c')) ∧
  (∀ s : State, s.RunsForever ↔ (Session.new s).ContinuesForever)

/-! ## The control layer -/

/-- A breakpoint stops Continue exactly after the first step that brings `pc` to it, with the instruction there not yet
executed: Continue stops on a breakpoint exactly where some step leaves `pc` at an address of the set and reports no end,
and no earlier step reported an end or left `pc` in the set; the address reported is the post-step `pc` and the set is
unchanged. The state before the first step is not looked at, and neither is `H` (R118, R116; that the outcome is tested
before the breakpoint is the spec's D19, log entry 14). -/
def Obligations.BreakpointStopsBeforeTheInstruction : Prop :=
  ∀ (c c' : Session) (a : Byte), c.ContinueStops (.breakpoint a) c' ↔
    c'.breakpoints = c.breakpoints ∧ c'.engine.pc = a ∧ a ∈ c.breakpoints ∧ c'.engine.runEnd = none ∧
    ∃ n, c.engine.after (n + 1) = some c'.engine ∧
      ∀ k, k < n → ∃ u, c.engine.after (k + 1) = some u ∧ u.runEnd = none ∧ u.pc ∉ c.breakpoints

/-- Step N: no step for 0; a first step that reports an end, or else leaves `pc` in the set, stops it there whatever the
bound; a first step that does neither is all that Step 1 takes; and the single step of R114 is that step, with no
breakpoint looked at. And Step N taken twice: `m` steps that stop for no reason and then `n` more are `m + n` steps, and a
stop within the first `m` is the stop of `m + n`. Together these fix Step N for every bound (R114, R115; the order of the
two tests, Step 0 and what Step N reports, the number of steps taken among it, are the spec's D19, log entry 14). -/
def Obligations.StepNComposes : Prop :=
  (∀ c : Session, c.stepN 0 = .next (.stepsTaken 0, c)) ∧
  (∀ (c : Session) (t : State), step c.engine = .next t →
    c.singleStep = .next { c with engine := t } ∧
    (∀ n e, t.runEnd = some e → c.stepN (n + 1) = .next (.stopped e.stopReason, { c with engine := t })) ∧
    (∀ n, t.runEnd = none → t.pc ∈ c.breakpoints →
      c.stepN (n + 1) = .next (.stopped (.breakpoint t.pc), { c with engine := t })) ∧
    (t.runEnd = none → t.pc ∉ c.breakpoints → c.stepN 1 = .next (.stepsTaken 1, { c with engine := t }))) ∧
  (∀ (m n : Nat) (c c' : Session),
    (c.stepN m = .next (.stepsTaken m, c') →
      (∀ r c'', c'.stepN n = .next (.stopped r, c'') → c.stepN (m + n) = .next (.stopped r, c'')) ∧
      (∀ c'', c'.stepN n = .next (.stepsTaken n, c'') → c.stepN (m + n) = .next (.stepsTaken (m + n), c''))) ∧
    (∀ r, c.stepN m = .next (.stopped r, c') → c.stepN (m + n) = .next (.stopped r, c')))

/-- Setting a breakpoint adds its address and nothing else, clearing removes it and nothing else; setting one that is set
and clearing one that is not are reported as no-ops and change nothing; the engine is untouched (R117). That the set is
the strictly rising list of its addresses, and so that both keep this form, is the model's choice (log entry 14). -/
def Obligations.BreakpointSetAndClear : Prop :=
  ∀ (c : Session) (a : Byte), c.breakpoints.WF →
    (∀ b, b ∈ (c.setBreakpoint a).2.breakpoints ↔ b = a ∨ b ∈ c.breakpoints) ∧
    (∀ b, b ∈ (c.clearBreakpoint a).2.breakpoints ↔ b ≠ a ∧ b ∈ c.breakpoints) ∧
    (a ∈ c.breakpoints → c.setBreakpoint a = (.noOp, c)) ∧
    (a ∉ c.breakpoints → c.clearBreakpoint a = (.noOp, c)) ∧
    (c.setBreakpoint a).2.setBreakpoint a = (.noOp, (c.setBreakpoint a).2) ∧
    (c.clearBreakpoint a).2.clearBreakpoint a = (.noOp, (c.clearBreakpoint a).2) ∧
    (c.setBreakpoint a).2.engine = c.engine ∧ (c.clearBreakpoint a).2.engine = c.engine ∧
    (c.setBreakpoint a).2.breakpoints.WF ∧ (c.clearBreakpoint a).2.breakpoints.WF

/-! ## The host's transactions -/

/-- A host's transaction other than reset, step and run changes nothing of the engine but, for a write, the one byte it
writes; each read answers the element it names (R21, R78; the transaction interface is the spec's D7 and D9). -/
def Obligations.HostWritesOnlyMemory : Prop :=
  ∀ (s : State) (a v : Byte),
    s.transact .readPc = .next (.byte s.pc, s) ∧ s.transact .readAcc = .next (.byte s.acc, s) ∧
    s.transact .readZero = .next (.flag s.zero, s) ∧ s.transact .readNegative = .next (.flag s.negative, s) ∧
    s.transact .readHalted = .next (.flag s.halted, s) ∧
    s.transact (.memRead a) = .next (.byte (s.memRead a), s) ∧
    ∃ t, s.transact (.memWrite a v) = .next (.nothing, t) ∧
      (s.mem.wf = true → t.memRead a = v) ∧ (∀ b, b ≠ a → t.memRead b = s.memRead b) ∧
      t.pc = s.pc ∧ t.acc = s.acc ∧ t.zero = s.zero ∧ t.negative = s.negative ∧ t.halted = s.halted ∧
      t.hltLatched = s.hltLatched ∧ t.config = s.config

/-! ## The memory-image loader -/

/-- Comments begin at `;` and run up to but not including the line break, and stripping keeps every line break: text
before a comment and everything from its line break on is kept, the comment is gone, the number of line breaks is the
same, and the tokens and their lines are those of the text without the comment (R137). That a line break is the line feed
alone, so that a comment runs on across a lone carriage return, is PRESUMED (log entry 12). -/
def Obligations.CommentStrippingKeepsLineBreaks : Prop :=
  (∀ source : List Char, (stripComments false source).count '\n' = source.count '\n') ∧
  (∀ source : List Char, ';' ∉ stripComments false source) ∧
  (∀ source : List Char, ';' ∉ source → stripComments false source = source) ∧
  (∀ line comment rest : List Char, ';' ∉ line → '\n' ∉ comment →
    stripComments false (line ++ ';' :: comment ++ '\n' :: rest) = line ++ '\n' :: stripComments false rest ∧
    stripComments false (line ++ ';' :: comment) = line ∧
    tokensOf (line ++ ';' :: comment ++ '\n' :: rest) = tokensOf (line ++ '\n' :: rest))

/-- The loader stops writing at the first error and keeps what it wrote: after tokens that load to a state, a token on
which loading fails, by its number, by overflow, or as the operand of an `org`, leaves exactly that state with the error,
and the tokens behind it are not looked at (R143). That an `org` before a token that is no number gives that token's error
is the spec's D18 (R140, log entry 13). That `boot` starts no engine on an image whose load failed is the model's choice
of the two that R143 leaves a host (log entry 13). -/
def Obligations.FailedLoadKeepsEarlierBytes : Prop :=
  (∀ (before behind : List Token) (t : Token) (st st' st'' : LoadState) (e : LoadError),
    loadTokens none before st = (st', none) → t.isOrg = false → loadTokens none [t] st' = (st'', some e) →
    loadTokens none (before ++ t :: behind) st = (st', some e)) ∧
  (∀ (before behind : List Token) (o t : Token) (st st' : LoadState) (e : NumberError),
    loadTokens none before st = (st', none) → o.isOrg = true → numberOf t.text = .error e →
    loadTokens none (before ++ o :: t :: behind) st = (st', some (e.at t))) ∧
  (∀ (c : Config) (source : List Char) (e : LoadError), (load source []).2 = some e → boot c source = .error e)

/-- Writing when the cursor is 256 fails with `MemoryOverflow` and leaves what was written; a text that writes exactly up
to address 255 and stops is accepted; and the cursor never leaves 0 to 256 (R141). -/
def Obligations.WritingPastTheEndOverflows : Prop :=
  (∀ (before behind : List Token) (t : Token) (st st' : LoadState) (v : Byte),
    loadTokens none before st = (st', none) → st'.cursor = 256 → t.isOrg = false → numberOf t.text = .ok v →
    loadTokens none (before ++ t :: behind) st = (st', some .memoryOverflow)) ∧
  (∀ (before : List Token) (t : Token) (st st' : LoadState) (v : Byte),
    loadTokens none before st = (st', none) → st'.cursor = 255 → t.isOrg = false → numberOf t.text = .ok v →
    loadTokens none (before ++ [t]) st = ({ cursor := 256, buffer := st'.buffer.writeCell 255 v }, none)) ∧
  (∀ (source : List Char) (buffer : Memory), (load source buffer).1.cursor ≤ 256) ∧
  (∀ (source : List Char) (buffer : Memory), (load source buffer).2 = some .memoryOverflow →
    (load source buffer).1.cursor = 256)

/-- A token that is no number is reported with its 1-based line, whatever stands on the lines before it, comments and
blank lines included, and the bytes loaded before it stay (R142; the example is E7). That a line break is the line feed
alone and that tokens end at space, tab, carriage return and line feed is PRESUMED (log entry 12). That the token's own
error is given where the source before it leaves the cursor at 256, and not `MemoryOverflow`, is DEDUCED from R140 and
R141; unsafe for a claim about the error reported (log entry 13). -/
def Obligations.BadTokenReportsItsLine : Prop :=
  ∀ (source tok : List Char) (buffer : Memory) (st : LoadState),
    load source buffer = (st, none) → tok ≠ [] → (∀ c ∈ tok, c.isWhitespace = false ∧ c ≠ ';') →
    numberOf tok = .error .invalidDigit → tok ≠ ['o', 'r', 'g'] → tok ≠ ['O', 'R', 'G'] →
    load (source ++ '\n' :: tok) buffer = (st, some (.invalidDigit tok (source.count '\n' + 2)))

/-- Numeric tokens: a decimal numeral is its value up to 255 and out of range above; with `-` it is the negated value
modulo 256 down to -128 and out of range below; a hexadecimal numeral after `0x` is its value up to 255 and out of range
above (R139; the refusals of unlisted spellings are the spec's D18 and not used here). -/
def Obligations.NumericTokensHaveTheirValues : Prop :=
  ∀ n : Nat,
    numberOf (Nat.toDigits 10 n) = (if n ≤ 255 then .ok (BitVec.ofNat 8 n) else .error .outOfRange) ∧
    numberOf ('-' :: Nat.toDigits 10 n) =
      (if n ≤ 128 then .ok (BitVec.ofInt 8 (-(n : Int))) else .error .outOfRange) ∧
    numberOf ('0' :: 'x' :: Nat.toDigits 16 n) =
      (if n ≤ 255 then .ok (BitVec.ofNat 8 n) else .error .outOfRange)

/-- The loader is a faithful boot path: the source text that lists up to 256 bytes loads without an error, leaves exactly
those bytes from address 0 on and every later byte of the caller's buffer as it was; behind `org` with an address it
leaves them from that address on and every other byte as it was; and anywhere in a text an `org` with a numeric operand
sets the cursor to the operand, writes nothing and lets the load go on (R136, R138 to R140). That a blank separates tokens
is PRESUMED (log entry 12); that upper-case hexadecimal digits are accepted, and that `org` and `ORG` are the only
spellings, is the spec's D18 (log entry 13). -/
def Obligations.LoaderWritesTheListedBytes : Prop :=
  (∀ (bytes : List Byte) (buffer : Memory), bytes.length ≤ 256 → buffer.wf = true →
    ∃ m : Memory, load (sourceOf bytes) buffer = ({ cursor := bytes.length, buffer := m }, none) ∧ m.wf = true ∧
      (∀ (k : Nat) (b : Byte), bytes[k]? = some b → m.readCell k = b) ∧
      (∀ k, bytes.length ≤ k → m.readCell k = buffer.readCell k)) ∧
  (∀ (org : List Char) (a : Byte) (bytes : List Byte) (buffer : Memory), org ∈ [['o', 'r', 'g'], ['O', 'R', 'G']] →
    a.toNat + bytes.length ≤ 256 → buffer.wf = true →
    ∃ m : Memory, load (org ++ ' ' :: sourceOf (a :: bytes)) buffer =
        ({ cursor := a.toNat + bytes.length, buffer := m }, none) ∧ m.wf = true ∧
      (∀ (k : Nat) (b : Byte), bytes[k]? = some b → m.readCell (a.toNat + k) = b) ∧
      (∀ k, k < a.toNat ∨ a.toNat + bytes.length ≤ k → m.readCell k = buffer.readCell k)) ∧
  (∀ t : Token, t.isOrg = true ↔ t.text ∈ [['o', 'r', 'g'], ['O', 'R', 'G']]) ∧
  (∀ (before behind : List Token) (o t : Token) (st st' : LoadState) (v : Byte),
    loadTokens none before st = (st', none) → o.isOrg = true → numberOf t.text = .ok v →
    loadTokens none (before ++ o :: t :: behind) st =
      loadTokens none behind { cursor := v.toNat, buffer := st'.buffer })

/-! ## The invariant under the host's transactions -/

/-- AN INVARIANT THAT EVERY TRANSACTION KEEPS: from any state that meets the invariant, each transaction of R78, a reset
with a canonical image, a step, a run, a read or an arbitrary write to memory, leaves a state that meets it (R18, R22,
R43; the transactions are the spec's D7 and D9, log entry 10; the cut-off of `run` is log entry 11). -/
def Obligations.TransactionKeepsTheInvariant : Prop :=
  ∀ (s t : State) (x : Transaction) (r : Response), s.Inv → x.WF → s.transact x = .next (r, t) → t.Inv

end
end

