-- ==== Sys2Proof/Laws/Decode.lean ====
section
/-! SUPPORT. The laws of the opcode byte, the opcode map and the decoder. -/

namespace Sys2Proof

/-! ## The two nibbles of an opcode byte (R5) -/

@[simp] theorem highNibble_opcodeByte (op x : Nibble) : highNibble (opcodeByte op x) = op := by
  apply BitVec.eq_of_getLsbD_eq
  intro i hi
  simp only [highNibble, opcodeByte, BitVec.getLsbD_extractLsb', BitVec.getLsbD_append]
  simp [hi]

@[simp] theorem lowNibble_opcodeByte (op x : Nibble) : lowNibble (opcodeByte op x) = x := by
  apply BitVec.eq_of_getLsbD_eq
  intro i hi
  simp only [lowNibble, opcodeByte, BitVec.getLsbD_extractLsb', BitVec.getLsbD_append]
  simp [hi]

@[simp] theorem opcodeByte_nibbles (b : Byte) : opcodeByte (highNibble b) (lowNibble b) = b := by
  apply BitVec.eq_of_getLsbD_eq
  intro i hi
  simp only [opcodeByte, highNibble, lowNibble, BitVec.getLsbD_extractLsb', BitVec.getLsbD_append]
  split
  · simp [*]
  · have : i - 4 < 4 := by omega
    have : 4 + (i - 4) = i := by omega
    simp [*]

/-! ## The opcode map (R55) -/

/-- What a selected mnemonic says of the `op` value. -/
theorem OpcodeMap.code_of_lookup {m : OpcodeMap} {op : Nibble} {o : Opcode} (h : m.lookup op = some o) :
    m.code o = op := by
  have := List.find?_some h
  simpa using this

/-- An `op` value that selects nothing is the value of no mnemonic. -/
theorem OpcodeMap.lookup_eq_none_iff (m : OpcodeMap) (op : Nibble) : m.lookup op = none ↔ ∀ o, m.code o ≠ op := by
  unfold OpcodeMap.lookup
  rw [List.find?_eq_none]
  constructor
  · intro h o
    have := h o (by cases o <;> decide)
    simpa using this
  · intro h o _
    simpa using h o

/-- R55: under an admissible map two mnemonics never share an `op` value. -/
theorem OpcodeMap.code_injective {m : OpcodeMap} (h : m.Admissible) : Function.Injective m.code := by
  have hinj : (Opcode.all.map m.code).Nodup := h
  have := List.inj_on_of_nodup_map hinj
  intro a b hab
  exact this (by cases a <;> decide) (by cases b <;> decide) hab

/-- R55: under an admissible map each mnemonic's `op` value selects it. -/
theorem OpcodeMap.lookup_code {m : OpcodeMap} (h : m.Admissible) (o : Opcode) : m.lookup (m.code o) = some o := by
  cases hl : m.lookup (m.code o) with
  | none => exact absurd rfl ((m.lookup_eq_none_iff _).1 hl o)
  | some o' => exact congrArg some (OpcodeMap.code_injective h (OpcodeMap.code_of_lookup hl))

theorem OpcodeMap.classic_admissible : OpcodeMap.classic.Admissible := by decide

/-! ## Mnemonics and instructions (R50, R54) -/

@[simp] theorem Opcode.opcode_withOperand (o : Opcode) (a : Byte) : (o.withOperand a).opcode = o := by
  cases o <;> rfl

/-- The operand bytes of the instruction made of a mnemonic and a byte. -/
theorem Opcode.operandBytes_withOperand (o : Opcode) (a : Byte) :
    (o.withOperand a).operandBytes = if o.needsOperand then [a] else [] := by
  cases o <;> rfl

@[simp] theorem Opcode.length_withOperand (o : Opcode) (a : Byte) : (o.withOperand a).length = o.length := by
  cases o <;> rfl

@[simp] theorem Instr.length_opcode (i : Instr) : i.opcode.length = i.length := by
  cases i <;> rfl

/-- R50: an instruction is 1 or 2 bytes long. -/
theorem Opcode.length_cases (o : Opcode) :
    (o.needsOperand = true ∧ o.length = 2) ∨ (o.needsOperand = false ∧ o.length = 1) := by
  cases o <;> simp [Opcode.needsOperand, Opcode.length]

/-- Everything `Decode(b)` can answer (R56). -/
theorem decodeOpcode_cases (m : OpcodeMap) (b : Byte) :
    (∃ o, m.lookup (highNibble b) = some o ∧ decodeOpcode m b = .ok o) ∨
      (m.lookup (highNibble b) = none ∧ decodeOpcode m b = .error (.invalidInstruction b)) := by
  unfold decodeOpcode
  cases m.lookup (highNibble b) with
  | none => exact .inr ⟨rfl, rfl⟩
  | some o => exact .inl ⟨o, rfl, rfl⟩

end Sys2Proof
end

