-- ==== Sys2Proof/Laws/State.lean ====
section
/-! SUPPORT. One lemma per field for each named update of the state, so that no later proof unfolds a record update. -/

namespace Sys2Proof.Machine

/-! ## `State.resetWith` (R22) -/

@[simp] theorem State.resetWith_pc (c : Config) (image : Memory) : (State.resetWith c image).pc = resetVector := rfl

@[simp] theorem State.resetWith_acc (c : Config) (image : Memory) : (State.resetWith c image).acc = c.resetAcc := rfl

@[simp] theorem State.resetWith_zero (c : Config) (image : Memory) : (State.resetWith c image).zero = c.resetZero := rfl

@[simp] theorem State.resetWith_negative (c : Config) (image : Memory) : (State.resetWith c image).negative = c.resetNegative := rfl

@[simp] theorem State.resetWith_halted (c : Config) (image : Memory) : (State.resetWith c image).halted = false := rfl

@[simp] theorem State.resetWith_mem (c : Config) (image : Memory) : (State.resetWith c image).mem = image := rfl

@[simp] theorem State.resetWith_hltLatched (c : Config) (image : Memory) : (State.resetWith c image).hltLatched = false := rfl

@[simp] theorem State.resetWith_config (c : Config) (image : Memory) : (State.resetWith c image).config = c := rfl

@[simp] theorem State.resetWith_outcome (c : Config) (image : Memory) : (State.resetWith c image).outcome = none := rfl

/-! ## `State.memWrite` (R33) -/

@[simp] theorem State.memWrite_pc (s : State) (a v : Byte) : (s.memWrite a v).pc = s.pc := rfl

@[simp] theorem State.memWrite_acc (s : State) (a v : Byte) : (s.memWrite a v).acc = s.acc := rfl

@[simp] theorem State.memWrite_zero (s : State) (a v : Byte) : (s.memWrite a v).zero = s.zero := rfl

@[simp] theorem State.memWrite_negative (s : State) (a v : Byte) : (s.memWrite a v).negative = s.negative := rfl

@[simp] theorem State.memWrite_halted (s : State) (a v : Byte) : (s.memWrite a v).halted = s.halted := rfl

@[simp] theorem State.memWrite_mem (s : State) (a v : Byte) : (s.memWrite a v).mem = s.mem.writeCell a.toNat v := rfl

@[simp] theorem State.memWrite_hltLatched (s : State) (a v : Byte) : (s.memWrite a v).hltLatched = s.hltLatched := rfl

@[simp] theorem State.memWrite_config (s : State) (a v : Byte) : (s.memWrite a v).config = s.config := rfl

@[simp] theorem State.memWrite_outcome (s : State) (a v : Byte) : (s.memWrite a v).outcome = s.outcome := rfl

/-! ## `State.report` (R71) -/

@[simp] theorem State.report_pc (s : State) (o : StepOutcome) : (s.report o).pc = s.pc := rfl

@[simp] theorem State.report_acc (s : State) (o : StepOutcome) : (s.report o).acc = s.acc := rfl

@[simp] theorem State.report_zero (s : State) (o : StepOutcome) : (s.report o).zero = s.zero := rfl

@[simp] theorem State.report_negative (s : State) (o : StepOutcome) : (s.report o).negative = s.negative := rfl

@[simp] theorem State.report_halted (s : State) (o : StepOutcome) : (s.report o).halted = s.halted := rfl

@[simp] theorem State.report_mem (s : State) (o : StepOutcome) : (s.report o).mem = s.mem := rfl

@[simp] theorem State.report_hltLatched (s : State) (o : StepOutcome) : (s.report o).hltLatched = s.hltLatched := rfl

@[simp] theorem State.report_config (s : State) (o : StepOutcome) : (s.report o).config = s.config := rfl

@[simp] theorem State.report_outcome (s : State) (o : StepOutcome) : (s.report o).outcome = some o := rfl

/-! ## `State.raise` (R107) -/

@[simp] theorem State.raise_pc (s : State) (e : StepException) : (s.raise e).pc = s.pc := rfl

@[simp] theorem State.raise_acc (s : State) (e : StepException) : (s.raise e).acc = s.acc := rfl

@[simp] theorem State.raise_zero (s : State) (e : StepException) : (s.raise e).zero = s.zero := rfl

@[simp] theorem State.raise_negative (s : State) (e : StepException) : (s.raise e).negative = s.negative := rfl

@[simp] theorem State.raise_halted (s : State) (e : StepException) : (s.raise e).halted = s.halted := rfl

@[simp] theorem State.raise_mem (s : State) (e : StepException) : (s.raise e).mem = s.mem := rfl

@[simp] theorem State.raise_hltLatched (s : State) (e : StepException) : (s.raise e).hltLatched = s.hltLatched := rfl

@[simp] theorem State.raise_config (s : State) (e : StepException) : (s.raise e).config = s.config := rfl

@[simp] theorem State.raise_outcome (s : State) (e : StepException) : (s.raise e).outcome = some (.exception e) := rfl

/-! ## `State.readyToFetch` -/

@[simp] theorem State.readyToFetch_pc (s : State) : (s.readyToFetch).pc = s.pc := rfl

@[simp] theorem State.readyToFetch_acc (s : State) : (s.readyToFetch).acc = s.acc := rfl

@[simp] theorem State.readyToFetch_zero (s : State) : (s.readyToFetch).zero = s.zero := rfl

@[simp] theorem State.readyToFetch_negative (s : State) : (s.readyToFetch).negative = s.negative := rfl

@[simp] theorem State.readyToFetch_halted (s : State) : (s.readyToFetch).halted = false := rfl

@[simp] theorem State.readyToFetch_mem (s : State) : (s.readyToFetch).mem = s.mem := rfl

@[simp] theorem State.readyToFetch_hltLatched (s : State) : (s.readyToFetch).hltLatched = false := rfl

@[simp] theorem State.readyToFetch_config (s : State) : (s.readyToFetch).config = s.config := rfl

@[simp] theorem State.readyToFetch_outcome (s : State) : (s.readyToFetch).outcome = s.outcome := rfl

/-! ## `State.afterFetch` (R65) -/

@[simp] theorem State.afterFetch_pc (s : State) (o : Opcode) : (s.afterFetch o).pc = s.pc + BitVec.ofNat 8 o.length := rfl

@[simp] theorem State.afterFetch_acc (s : State) (o : Opcode) : (s.afterFetch o).acc = s.acc := rfl

@[simp] theorem State.afterFetch_zero (s : State) (o : Opcode) : (s.afterFetch o).zero = s.zero := rfl

@[simp] theorem State.afterFetch_negative (s : State) (o : Opcode) : (s.afterFetch o).negative = s.negative := rfl

@[simp] theorem State.afterFetch_halted (s : State) (o : Opcode) : (s.afterFetch o).halted = (s.halted || o.fetchesLastAddress s.pc) := rfl

@[simp] theorem State.afterFetch_mem (s : State) (o : Opcode) : (s.afterFetch o).mem = s.mem := rfl

@[simp] theorem State.afterFetch_hltLatched (s : State) (o : Opcode) : (s.afterFetch o).hltLatched = s.hltLatched := rfl

@[simp] theorem State.afterFetch_config (s : State) (o : Opcode) : (s.afterFetch o).config = s.config := rfl

@[simp] theorem State.afterFetch_outcome (s : State) (o : Opcode) : (s.afterFetch o).outcome = s.outcome := rfl

/-! ## `State.latchHlt` (R80) -/

@[simp] theorem State.latchHlt_pc (s : State) : (s.latchHlt).pc = s.pc := by
  unfold State.latchHlt; split <;> rfl

@[simp] theorem State.latchHlt_acc (s : State) : (s.latchHlt).acc = s.acc := by
  unfold State.latchHlt; split <;> rfl

@[simp] theorem State.latchHlt_zero (s : State) : (s.latchHlt).zero = s.zero := by
  unfold State.latchHlt; split <;> rfl

@[simp] theorem State.latchHlt_negative (s : State) : (s.latchHlt).negative = s.negative := by
  unfold State.latchHlt; split <;> rfl

@[simp] theorem State.latchHlt_halted (s : State) : (s.latchHlt).halted = s.halted := by
  unfold State.latchHlt; split <;> rfl

@[simp] theorem State.latchHlt_mem (s : State) : (s.latchHlt).mem = s.mem := by
  unfold State.latchHlt; split <;> rfl

@[simp] theorem State.latchHlt_hltLatched (s : State) : (s.latchHlt).hltLatched = (s.config.hltSticky || s.hltLatched) := by
  unfold State.latchHlt; split <;> simp [*]

@[simp] theorem State.latchHlt_config (s : State) : (s.latchHlt).config = s.config := by
  unfold State.latchHlt; split <;> rfl

@[simp] theorem State.latchHlt_outcome (s : State) : (s.latchHlt).outcome = s.outcome := by
  unfold State.latchHlt; split <;> rfl

/-! ## `State.setZN` (R74): what it writes and what it leaves -/

@[simp] theorem State.setZN_pc (s : State) (v : Byte) : (s.setZN v).pc = s.pc := by
  unfold State.setZN; split_ifs <;> rfl

@[simp] theorem State.setZN_acc (s : State) (v : Byte) : (s.setZN v).acc = s.acc := by
  unfold State.setZN; split_ifs <;> rfl

@[simp] theorem State.setZN_zero (s : State) (v : Byte) : (s.setZN v).zero = (v == 0x00#8) := by
  unfold State.setZN; split_ifs <;> simp_all

@[simp] theorem State.setZN_negative (s : State) (v : Byte) : (s.setZN v).negative = v.msb := by
  unfold State.setZN; split_ifs <;> simp_all

@[simp] theorem State.setZN_halted (s : State) (v : Byte) : (s.setZN v).halted = s.halted := by
  unfold State.setZN; split_ifs <;> rfl

@[simp] theorem State.setZN_mem (s : State) (v : Byte) : (s.setZN v).mem = s.mem := by
  unfold State.setZN; split_ifs <;> rfl

@[simp] theorem State.setZN_hltLatched (s : State) (v : Byte) : (s.setZN v).hltLatched = s.hltLatched := by
  unfold State.setZN; split_ifs <;> rfl

@[simp] theorem State.setZN_config (s : State) (v : Byte) : (s.setZN v).config = s.config := by
  unfold State.setZN; split_ifs <;> rfl

@[simp] theorem State.setZN_outcome (s : State) (v : Byte) : (s.setZN v).outcome = s.outcome := by
  unfold State.setZN; split_ifs <;> rfl

/-! ## `State.setAcc` (R65) -/

@[simp] theorem State.setAcc_pc (s : State) (v : Byte) : (s.setAcc v).pc = s.pc := by
  simp [State.setAcc]

@[simp] theorem State.setAcc_acc (s : State) (v : Byte) : (s.setAcc v).acc = v := by
  simp [State.setAcc]

@[simp] theorem State.setAcc_zero (s : State) (v : Byte) : (s.setAcc v).zero = (v == 0x00#8) := by
  simp [State.setAcc]

@[simp] theorem State.setAcc_negative (s : State) (v : Byte) : (s.setAcc v).negative = v.msb := by
  simp [State.setAcc]

@[simp] theorem State.setAcc_halted (s : State) (v : Byte) : (s.setAcc v).halted = s.halted := by
  simp [State.setAcc]

@[simp] theorem State.setAcc_mem (s : State) (v : Byte) : (s.setAcc v).mem = s.mem := by
  simp [State.setAcc]

@[simp] theorem State.setAcc_hltLatched (s : State) (v : Byte) : (s.setAcc v).hltLatched = s.hltLatched := by
  simp [State.setAcc]

@[simp] theorem State.setAcc_config (s : State) (v : Byte) : (s.setAcc v).config = s.config := by
  simp [State.setAcc]

@[simp] theorem State.setAcc_outcome (s : State) (v : Byte) : (s.setAcc v).outcome = s.outcome := by
  simp [State.setAcc]

/-! ## The byte read after an update -/

@[simp] theorem State.memRead_report (s : State) (o : StepOutcome) (a : Byte) : (s.report o).memRead a = s.memRead a := rfl

@[simp] theorem State.memRead_raise (s : State) (e : StepException) (a : Byte) : (s.raise e).memRead a = s.memRead a := rfl

@[simp] theorem State.memRead_readyToFetch (s : State) (a : Byte) : s.readyToFetch.memRead a = s.memRead a := rfl

@[simp] theorem State.memRead_afterFetch (s : State) (o : Opcode) (a : Byte) :
    (s.afterFetch o).memRead a = s.memRead a := rfl

@[simp] theorem State.memRead_latchHlt (s : State) (a : Byte) : s.latchHlt.memRead a = s.memRead a := by
  simp [State.memRead]

@[simp] theorem State.memRead_setZN (s : State) (v a : Byte) : (s.setZN v).memRead a = s.memRead a := by
  simp [State.memRead]

@[simp] theorem State.memRead_setAcc (s : State) (v a : Byte) : (s.setAcc v).memRead a = s.memRead a := by
  simp [State.memRead]

end Sys2Proof.Machine
end

