-- ==== Sys2Proof/Laws/Memory.lean ====
section
/-! SUPPORT. The laws of the canonical memory: a read after a write, and that every memory operation keeps the form. -/

namespace Sys2Proof.Machine

/-! ## Read after write -/

@[simp] theorem Memory.readCell_nil (a : Nat) : Memory.readCell [] a = unwrittenByte := rfl

/-- An address below every listed one reads as unwritten. -/
theorem Memory.readCell_of_lt {lo : Nat} {m : Memory} (h : Memory.wfFrom lo m = true) {a : Nat} (ha : a < lo) :
    m.readCell a = unwrittenByte := by
  induction m generalizing lo with
  | nil => rfl
  | cons p m ih =>
    obtain ⟨k, v⟩ := p
    simp only [Memory.wfFrom, Bool.and_eq_true, decide_eq_true_eq] at h
    have hk : k ≠ a := by omega
    simp only [Memory.readCell, hk, if_false]
    exact ih h.2 (by omega)

/-- A canonical tail is canonical from any lower bound below its own. -/
theorem Memory.wfFrom_mono {lo lo' : Nat} {m : Memory} (h : Memory.wfFrom lo m = true) (hl : lo' ≤ lo) :
    Memory.wfFrom lo' m = true := by
  cases m with
  | nil => rfl
  | cons p m =>
    obtain ⟨k, v⟩ := p
    simp only [Memory.wfFrom, Bool.and_eq_true, decide_eq_true_eq] at h ⊢
    exact ⟨⟨⟨by omega, h.1.1.2⟩, h.1.2⟩, h.2⟩

/-- R33: the byte stored is the byte read back; needs the form, since a listed address stands once. -/
theorem Memory.readCell_writeCell_same {lo : Nat} {m : Memory} (h : Memory.wfFrom lo m = true) (a : Nat) (v : Byte) :
    (m.writeCell a v).readCell a = v := by
  induction m generalizing lo with
  | nil =>
    simp only [Memory.writeCell]
    split
    · simp_all
    · simp [Memory.readCell]
  | cons p m ih =>
    obtain ⟨k, w⟩ := p
    have h' := h
    simp only [Memory.wfFrom, Bool.and_eq_true, decide_eq_true_eq] at h'
    simp only [Memory.writeCell]
    split_ifs with h1 h2 h3 h4
    · rw [Memory.readCell_of_lt (Memory.wfFrom_mono (lo' := k) (lo := k) (by
        simp only [Memory.wfFrom, Bool.and_eq_true, decide_eq_true_eq]
        exact ⟨⟨⟨le_rfl, h'.1.1.2⟩, h'.1.2⟩, h'.2⟩) le_rfl) h1, h2]
    · simp [Memory.readCell]
    · rw [Memory.readCell_of_lt h'.2 (by omega), h4]
    · simp [Memory.readCell]
    · have hk : k ≠ a := fun e => h3 e.symm
      simp only [Memory.readCell, hk, if_false]
      exact ih h'.2

/-- R33: a store leaves every other address alone. -/
theorem Memory.readCell_writeCell_ne (m : Memory) {a b : Nat} (v : Byte) (hab : b ≠ a) :
    (m.writeCell a v).readCell b = m.readCell b := by
  induction m with
  | nil =>
    simp only [Memory.writeCell]
    split <;> simp [Memory.readCell, Ne.symm hab]
  | cons p m ih =>
    obtain ⟨k, w⟩ := p
    simp only [Memory.writeCell]
    split_ifs with h1 h2 h3 h4
    · rfl
    · simp [Memory.readCell, Ne.symm hab]
    · subst h3; simp [Memory.readCell, Ne.symm hab]
    · subst h3; simp [Memory.readCell, Ne.symm hab]
    · simp only [Memory.readCell, ih]

/-! ## The canonical form is kept -/

theorem Memory.writeCell_wfFrom {lo : Nat} {m : Memory} (h : Memory.wfFrom lo m = true) {a : Nat} (v : Byte)
    (hlo : lo ≤ a) (ha : a < 256) : Memory.wfFrom lo (m.writeCell a v) = true := by
  induction m generalizing lo with
  | nil =>
    simp only [Memory.writeCell]
    split
    · rfl
    · simp [Memory.wfFrom, *]
  | cons p m ih =>
    obtain ⟨k, w⟩ := p
    have h' := h
    simp only [Memory.wfFrom, Bool.and_eq_true, decide_eq_true_eq] at h'
    obtain ⟨⟨⟨h1, h2⟩, h3⟩, h4⟩ := h'
    simp only [Memory.writeCell]
    split_ifs with c1 c2 c3 c4
    · exact h
    · simp only [Memory.wfFrom, Bool.and_eq_true, decide_eq_true_eq]
      exact ⟨⟨⟨hlo, ha⟩, c2⟩, ⟨⟨by omega, h2⟩, h3⟩, h4⟩
    · exact Memory.wfFrom_mono h4 (by omega)
    · subst c3
      simp only [Memory.wfFrom, Bool.and_eq_true, decide_eq_true_eq]
      exact ⟨⟨⟨hlo, ha⟩, c4⟩, h4⟩
    · simp only [Memory.wfFrom, Bool.and_eq_true, decide_eq_true_eq]
      exact ⟨⟨⟨h1, h2⟩, h3⟩, ih h4 (by omega)⟩

/-- A store keeps the canonical form. -/
theorem Memory.writeCell_wf {m : Memory} (h : m.wf = true) {a : Nat} (v : Byte) (ha : a < 256) :
    (m.writeCell a v).wf = true :=
  Memory.writeCell_wfFrom h v (Nat.zero_le a) ha

/-- Filling from an image keeps the canonical form. -/
theorem Memory.fill_wf (f : Byte → Byte) {n : Nat} (hn : n ≤ 256) {m : Memory} (h : m.wf = true) :
    (Memory.fill f n m).wf = true := by
  induction n generalizing m with
  | zero => exact h
  | succ n ih => exact ih (by omega) (Memory.writeCell_wf h _ (by omega))

/-- Reset memory has the canonical form. -/
theorem State.reset_mem_wf : State.reset.mem.wf = true := rfl

/-- The memory of an image has the canonical form. -/
theorem Memory.ofImage_wf (f : Byte → Byte) : (Memory.ofImage f).wf = true := by
  rw [Memory.ofImage]
  exact Memory.fill_wf f (Nat.le_refl 256) State.reset_mem_wf

/-- `MemWrite` keeps the canonical form. -/
theorem State.memWrite_wf {s : State} (h : s.mem.wf = true) (a v : Byte) : (s.memWrite a v).mem.wf = true :=
  Memory.writeCell_wf h v a.isLt

/-- Placing bytes keeps the canonical form. -/
theorem State.placeBytes_wf (bs : List Byte) (a : Nat) {s : State} (h : s.mem.wf = true) :
    (State.placeBytes bs a s).mem.wf = true := by
  induction bs generalizing a s with
  | nil => exact h
  | cons b bs ih =>
    refine ih (a + 1) ?_
    split
    · exact Memory.writeCell_wf h b ‹_›
    · exact h

/-! ## `MemRead` and `MemWrite` (R32, R33) -/

theorem State.memRead_memWrite_same {s : State} (h : s.mem.wf = true) (a v : Byte) :
    (s.memWrite a v).memRead a = v :=
  Memory.readCell_writeCell_same h a.toNat v

theorem State.memRead_memWrite_ne (s : State) {a b : Byte} (v : Byte) (hab : b ≠ a) :
    (s.memWrite a v).memRead b = s.memRead b :=
  Memory.readCell_writeCell_ne s.mem v (fun h => hab (BitVec.eq_of_toNat_eq h))

end Sys2Proof.Machine
end

