-- ==== Sys2Proof/Laws/Loader.lean ====
section
/-! SUPPORT. The loader, one character and one token at a time, and what loading does with a list of tokens in two
parts. -/

namespace Sys2Proof.Machine

theorem stripComments_nil (b : Bool) : stripComments b [] = [] := by cases b <;> rfl

/-- R137, one character. -/
theorem stripComments_cons (b : Bool) (c : Char) (cs : List Char) :
    stripComments b (c :: cs) =
      if c = '\n' then c :: stripComments false cs
      else if b then stripComments true cs
      else if c = ';' then stripComments true cs
      else c :: stripComments false cs := by
  rw [stripComments]

/-- R138, one character. -/
theorem tokenizeFrom_cons (line : Nat) (text : List Char) (c : Char) (cs : List Char) :
    tokenizeFrom line text (c :: cs) =
      if c.isWhitespace then pendingToken line text ++ tokenizeFrom (if c = '\n' then line + 1 else line) [] cs
      else tokenizeFrom line (text ++ [c]) cs := by
  rw [tokenizeFrom]

/-- R140, one token that no `org` precedes. -/
theorem loadTokens_cons (t : Token) (ts : List Token) (st : LoadState) :
    loadTokens none (t :: ts) st =
      if t.isOrg then loadTokens (some t) ts st
      else match numberOf t.text with
        | .error e => (st, some (e.at t))
        | .ok v =>
          if st.cursor < 256 then
            loadTokens none ts { cursor := st.cursor + 1, buffer := st.buffer.writeCell st.cursor v }
          else (st, some .memoryOverflow) := rfl

/-- R140, the token after an `org`. -/
theorem loadTokens_org (o t : Token) (ts : List Token) (st : LoadState) :
    loadTokens (some o) (t :: ts) st =
      match numberOf t.text with
      | .error e => (st, some (e.at t))
      | .ok v => loadTokens none ts { st with cursor := v.toNat } := rfl

/-- Loading in two parts: where the first part loads without an error, the second goes on from its state. -/
theorem loadTokens_append (before behind : List Token) (p : Option Token) (st st' : LoadState)
    (h : loadTokens p before st = (st', none)) :
    loadTokens p (before ++ behind) st = loadTokens none behind st' := by
  induction before generalizing p st with
  | nil => cases p <;> simp_all [loadTokens]
  | cons t ts ih =>
    cases p with
    | some o =>
      rw [loadTokens_org] at h
      rw [List.cons_append, loadTokens_org]
      cases hn : numberOf t.text with
      | error e => rw [hn] at h; cases h
      | ok v => rw [hn] at h; exact ih _ _ h
    | none =>
      rw [loadTokens_cons] at h
      rw [List.cons_append, loadTokens_cons]
      by_cases ho : t.isOrg = true
      · rw [if_pos ho] at h ⊢; exact ih _ _ h
      · rw [if_neg ho] at h ⊢
        cases hn : numberOf t.text with
        | error e => rw [hn] at h; cases h
        | ok v =>
          rw [hn] at h
          dsimp only at h ⊢
          by_cases hc : st.cursor < 256
          · rw [if_pos hc] at h ⊢; exact ih _ _ h
          · rw [if_neg hc] at h; cases h

/-- A load keeps the canonical form of the caller's buffer. -/
theorem loadTokens_wf (ts : List Token) (p : Option Token) (st : LoadState) (h : st.buffer.wf = true) :
    (loadTokens p ts st).1.buffer.wf = true := by
  induction ts generalizing p st with
  | nil => cases p <;> exact h
  | cons t ts ih =>
    cases p with
    | some o =>
      rw [loadTokens_org]
      cases numberOf t.text with
      | error e => exact h
      | ok v => exact ih _ _ h
    | none =>
      rw [loadTokens_cons]
      by_cases ho : t.isOrg = true
      · rw [if_pos ho]; exact ih _ _ h
      · rw [if_neg ho]
        cases numberOf t.text with
        | error e => exact h
        | ok v =>
          dsimp only
          by_cases hc : st.cursor < 256
          · rw [if_pos hc]; exact ih _ _ (Memory.writeCell_wf h v hc)
          · rw [if_neg hc]; exact h

/-- The loader keeps the canonical form of the caller's buffer. -/
theorem load_wf (source : List Char) {buffer : Memory} (h : buffer.wf = true) :
    (load source buffer).1.buffer.wf = true :=
  loadTokens_wf _ _ _ h

end Sys2Proof.Machine
end

