-- ==== Sys2Proof/Laws/PerInstr.lean ====
section
/-! SUPPORT. A statement about every instruction, proved constructor by constructor: the length of its encoding and what
its first byte's two nibbles are (R50 to R52), under every opcode map and with every low nibble. -/

namespace Sys2Proof.Laws.EncodingShape

/-- R50: the encoding has as many bytes as the instruction is long, 1 or 2; R51, R52: the high nibble of the first byte is
the `op` value, its low nibble the given `x`. -/
def Statement (i : Instr) : Prop :=
  ∀ (m : OpcodeMap) (x : Nibble),
    (encodeWith m x i).length = i.length ∧ (i.length = 1 ∨ i.length = 2) ∧
      (encodeWith m x i).head?.map highNibble = some (m.code i.opcode) ∧
      (encodeWith m x i).head?.map lowNibble = some x

theorem nop : Statement .nop := fun m x => by simp [encodeWith, Instr.operandBytes, Instr.length]
theorem sta (a : Byte) : Statement (.sta a) := fun m x => by simp [encodeWith, Instr.operandBytes, Instr.length]
theorem lda (a : Byte) : Statement (.lda a) := fun m x => by simp [encodeWith, Instr.operandBytes, Instr.length]
theorem add (a : Byte) : Statement (.add a) := fun m x => by simp [encodeWith, Instr.operandBytes, Instr.length]
theorem or (a : Byte) : Statement (.or a) := fun m x => by simp [encodeWith, Instr.operandBytes, Instr.length]
theorem and (a : Byte) : Statement (.and a) := fun m x => by simp [encodeWith, Instr.operandBytes, Instr.length]
theorem not : Statement .not := fun m x => by simp [encodeWith, Instr.operandBytes, Instr.length]
theorem jmp (a : Byte) : Statement (.jmp a) := fun m x => by simp [encodeWith, Instr.operandBytes, Instr.length]
theorem jn (a : Byte) : Statement (.jn a) := fun m x => by simp [encodeWith, Instr.operandBytes, Instr.length]
theorem jz (a : Byte) : Statement (.jz a) := fun m x => by simp [encodeWith, Instr.operandBytes, Instr.length]
theorem hlt : Statement .hlt := fun m x => by simp [encodeWith, Instr.operandBytes, Instr.length]

end Sys2Proof.Laws.EncodingShape
end

