-- ==== Sys2Proof/Laws/Step.lean ====
section
/-! SUPPORT. What each shared operation can do, said once: the fetches, the decode, the report of an outcome, the
accumulator update and the jump, and from them everything one step can do (`step_cases`). -/

namespace Sys2Proof.Machine

/-! ## Outcomes -/

theorem State.complete_eq (s : State) (o : StepOutcome) : s.complete o = .next (s.report o) := rfl

/-- A completed flag-writing instruction (R74): `acc`, `Z`, `N` and the report, and nothing else. -/
theorem State.accumulate_eq (s : State) (f : AluFunction) (b : Byte) :
    s.accumulate f b =
      .next { s with
        acc := alu f s.acc b
        zero := alu f s.acc b == 0x00#8
        negative := (alu f s.acc b).msb
        outcome := some .normal } := by
  unfold State.accumulate State.complete State.report
  congr 1
  rw [State.mk.injEq]
  simp

/-- A completed jump (R92 to R94): `pc` if it is taken, and the report. -/
theorem State.jumpIf_eq (s : State) (taken : Bool) (target : Byte) :
    s.jumpIf taken target = .next { s with pc := if taken then target else s.pc, outcome := some .normal } := by
  cases taken <;> rfl

/-- The latch of HLT (R80). -/
theorem State.latchHlt_eq (s : State) :
    s.latchHlt = { s with hltLatched := s.config.hltSticky || s.hltLatched } := by
  rw [State.mk.injEq]; simp

/-! ## What each instruction's execution answers -/

theorem exec_nop_eq (s : State) : exec .nop s = .next { s with outcome := some .normal } := rfl

theorem exec_sta_eq (a : Byte) (s : State) :
    exec (.sta a) s = .next { s with mem := s.mem.writeCell a.toNat s.acc, outcome := some (.write a s.acc.toInt) } :=
  rfl

theorem exec_lda_eq (a : Byte) (s : State) :
    exec (.lda a) s = .next { s with
      acc := s.memRead a
      zero := s.memRead a == 0x00#8
      negative := (s.memRead a).msb
      outcome := some .normal } :=
  State.accumulate_eq s .passB (s.memRead a)

theorem exec_add_eq (a : Byte) (s : State) :
    exec (.add a) s = .next { s with
      acc := s.acc + s.memRead a
      zero := s.acc + s.memRead a == 0x00#8
      negative := (s.acc + s.memRead a).msb
      outcome := some .normal } :=
  State.accumulate_eq s .add (s.memRead a)

theorem exec_or_eq (a : Byte) (s : State) :
    exec (.or a) s = .next { s with
      acc := s.acc ||| s.memRead a
      zero := s.acc ||| s.memRead a == 0x00#8
      negative := (s.acc ||| s.memRead a).msb
      outcome := some .normal } :=
  State.accumulate_eq s .or (s.memRead a)

theorem exec_and_eq (a : Byte) (s : State) :
    exec (.and a) s = .next { s with
      acc := s.acc &&& s.memRead a
      zero := s.acc &&& s.memRead a == 0x00#8
      negative := (s.acc &&& s.memRead a).msb
      outcome := some .normal } :=
  State.accumulate_eq s .and (s.memRead a)

theorem exec_not_eq (s : State) :
    exec .not s = .next { s with
      acc := ~~~s.acc
      zero := ~~~s.acc == 0x00#8
      negative := (~~~s.acc).msb
      outcome := some .normal } :=
  State.accumulate_eq s .not 0x00#8

theorem exec_jmp_eq (a : Byte) (s : State) : exec (.jmp a) s = .next { s with pc := a, outcome := some .normal } := rfl

theorem exec_jn_eq (a : Byte) (s : State) :
    exec (.jn a) s = .next { s with pc := if s.negative then a else s.pc, outcome := some .normal } :=
  State.jumpIf_eq s s.negative a

theorem exec_jz_eq (a : Byte) (s : State) :
    exec (.jz a) s = .next { s with pc := if s.zero then a else s.pc, outcome := some .normal } :=
  State.jumpIf_eq s s.zero a

theorem exec_hlt_eq (s : State) :
    exec .hlt s = .next { s with hltLatched := s.config.hltSticky || s.hltLatched, outcome := some .halted } := by
  change Host.Outcome.next (s.latchHlt.report .halted) = _
  rw [State.latchHlt_eq]
  rfl

/-- What executing an instruction leaves and what it may write, whatever the instruction (R70): every one completes; `H`
and the parameters are untouched, and the report is no exception. -/
theorem exec_answers (i : Instr) (s : State) :
    ∃ t o, exec i s = .next t ∧ t.outcome = some o ∧ (∀ e, o ≠ .exception e) ∧ t.halted = s.halted ∧
      t.config = s.config := by
  cases i <;>
    simp [exec_nop_eq, exec_sta_eq, exec_lda_eq, exec_add_eq, exec_or_eq, exec_and_eq, exec_not_eq, exec_jmp_eq,
      exec_jn_eq, exec_jz_eq, exec_hlt_eq]

/-- R19: what an instruction does never depends on the report of the step before. -/
theorem exec_outcome_irrelevant (i : Instr) (s : State) (o : Option StepOutcome) :
    exec i { s with outcome := o } = exec i s := by
  cases i <;>
    first
    | rfl
    | simp only [exec_lda_eq, exec_add_eq, exec_or_eq, exec_and_eq, exec_not_eq, exec_jn_eq, exec_jz_eq, exec_hlt_eq] <;> rfl

/-! ## Fetching -/

/-- Everything `Fetch()` can do (R34). -/
theorem State.fetch_cases (s : State) :
    (s.halted = true ∧ s.fetch = none) ∨
      (s.halted = false ∧
        s.fetch = some (s.memRead s.pc, { s with pc := s.pc + 1#8, halted := decide (s.pc = 0xFF#8) })) := by
  unfold State.fetch
  cases h : s.halted with
  | true => exact .inl ⟨rfl, by simp⟩
  | false => exact .inr ⟨rfl, by simp [isLastAddress]; rfl⟩

theorem State.hltBlocked_iff (s : State) :
    s.hltBlocked = true ↔ s.config.hltSticky = true ∧ s.hltLatched = true := by
  simp [State.hltBlocked]

/-- Not blocked means that neither flag stands in the way. -/
theorem State.not_blocked_iff (s : State) : ¬ s.Blocked ↔ s.halted = false ∧ s.hltBlocked = false := by
  unfold State.Blocked State.hltBlocked
  cases s.halted <;> cases s.config.hltSticky <;> cases s.hltLatched <;> simp

/-- The state after the opcode byte alone. -/
def State.afterOpcode (s : State) : State := { s with pc := s.pc + 1#8, halted := decide (s.pc = 0xFF#8) }

/-- Everything phases 0 to 3 can end in (R65, R66, R67, R69). -/
theorem State.fetchInstruction_cases (s : State) :
    (s.Blocked ∧ s.fetchInstruction = .raised .endOfProgram s) ∨
    (¬ s.Blocked ∧ s.nextOpcode = none ∧
      s.fetchInstruction = .raised (.invalidInstruction (s.memRead s.pc)) s.afterOpcode) ∨
    (∃ o, ¬ s.Blocked ∧ s.nextOpcode = some o ∧ o.needsOperand = true ∧ s.pc = 0xFF#8 ∧
      s.fetchInstruction = .raised .missingArgument { s with pc := 0x00#8, halted := true }) ∨
    (∃ o, ¬ s.Blocked ∧ s.nextOpcode = some o ∧ (o.needsOperand = true → s.pc ≠ 0xFF#8) ∧
      s.fetchInstruction =
        .ready (o.withOperand (if o.needsOperand then s.memRead (s.pc + 1#8) else 0x00#8)) (s.afterFetch o)) := by
  by_cases hb : s.Blocked
  · refine .inl ⟨hb, ?_⟩
    unfold State.fetchInstruction
    by_cases hl : s.hltBlocked = true
    · simp [hl]
    · have hh : s.halted = true := by
        rcases hb with h | h
        · exact h
        · exact absurd ((State.hltBlocked_iff s).2 h) hl
      simp [hl, State.fetch, hh]
  · obtain ⟨hh, hl⟩ := (State.not_blocked_iff s).1 hb
    have hf : s.fetch = some (s.memRead s.pc, s.afterOpcode) := by
      rcases s.fetch_cases with ⟨h, -⟩ | ⟨-, h⟩
      · simp [h] at hh
      · exact h
    have hstart : s.fetchInstruction = s.afterOpcode.decodeFetched (s.memRead s.pc) := by
      simp [State.fetchInstruction, hl, hf]
    rcases decodeOpcode_cases s.config.opcodes (s.memRead s.pc) with ⟨o, ho, hd⟩ | ⟨ho, hd⟩
    · have hd' : s.afterOpcode.decodeFetched (s.memRead s.pc) = s.afterOpcode.fetchOperand o := by
        unfold State.decodeFetched
        rw [show s.afterOpcode.config = s.config from rfl, hd]
      rw [hstart, hd']
      unfold State.fetchOperand
      by_cases hn : o.needsOperand = true
      · by_cases hpc : s.pc = 0xFF#8
        · refine .inr (.inr (.inl ⟨o, hb, ho, hn, hpc, ?_⟩))
          have : s.afterOpcode.fetch = none := by simp [State.fetch, State.afterOpcode, hpc]
          simp [hn, this]
          simp [State.afterOpcode, hpc]
        · refine .inr (.inr (.inr ⟨o, hb, ho, fun _ => hpc, ?_⟩))
          have hn' : s.afterOpcode.halted = false := by simp [State.afterOpcode, hpc]
          rcases s.afterOpcode.fetch_cases with ⟨h, -⟩ | ⟨-, h⟩
          · simp [h] at hn'
          · rw [if_pos hn, h]
            simp only [hn, if_true]
            have e1 : s.afterOpcode.pc = s.pc + 1#8 := rfl
            have e2 : s.afterOpcode.memRead (s.pc + 1#8) = s.memRead (s.pc + 1#8) := rfl
            have e3 : (s.pc + 1#8 = 0xFF#8) ↔ s.pc = 0xFE#8 := by
              constructor <;> intro h <;> bv_omega
            rw [e1, e2]
            congr 1
            rw [State.mk.injEq]
            refine ⟨?_, rfl, rfl, rfl, ?_, rfl, rfl, rfl, rfl⟩
            · simp [State.afterFetch, Opcode.length, hn, BitVec.add_assoc]
            · simp [State.afterFetch, Opcode.fetchesLastAddress, hn, hh, hpc, e3]
      · refine .inr (.inr (.inr ⟨o, hb, ho, fun h => absurd h hn, ?_⟩))
        simp only [Bool.not_eq_true] at hn
        simp [hn, State.afterFetch, Opcode.length, Opcode.fetchesLastAddress, hh, State.afterOpcode]
    · refine .inr (.inl ⟨hb, ho, ?_⟩)
      rw [hstart]
      unfold State.decodeFetched
      rw [show s.afterOpcode.config = s.config from rfl, hd]

/-- Everything one step can do (R65): the four endings of R106, each with the state it leaves (R76). -/
theorem step_cases (s : State) :
    (s.Blocked ∧ step s = .next (s.raise .endOfProgram)) ∨
    (¬ s.Blocked ∧ s.nextOpcode = none ∧
      step s = .next (s.afterOpcode.raise (.invalidInstruction (s.memRead s.pc)))) ∨
    (∃ o, ¬ s.Blocked ∧ s.nextOpcode = some o ∧ o.needsOperand = true ∧ s.pc = 0xFF#8 ∧
      step s = .next (({ s with pc := 0x00#8, halted := true } : State).raise .missingArgument)) ∨
    (∃ o, ¬ s.Blocked ∧ s.nextOpcode = some o ∧ (o.needsOperand = true → s.pc ≠ 0xFF#8) ∧
      step s = exec (o.withOperand (if o.needsOperand then s.memRead (s.pc + 1#8) else 0x00#8)) (s.afterFetch o)) := by
  rcases s.fetchInstruction_cases with ⟨h, e⟩ | ⟨h, h', e⟩ | ⟨o, h, h', h1, h2, e⟩ | ⟨o, h, h', h1, e⟩
  · exact .inl ⟨h, by simp [step, e]⟩
  · exact .inr (.inl ⟨h, h', by simp [step, e]⟩)
  · exact .inr (.inr (.inl ⟨o, h, h', h1, h2, by simp [step, e]⟩))
  · exact .inr (.inr (.inr ⟨o, h, h', h1, by simp [step, e]⟩))

/-- R71: a step always answers a next state. -/
theorem step_answers (s : State) : ∃ t, step s = .next t := by
  rcases step_cases s with ⟨-, e⟩ | ⟨-, -, e⟩ | ⟨o, -, -, -, -, e⟩ | ⟨o, -, -, -, e⟩
  · exact ⟨_, e⟩
  · exact ⟨_, e⟩
  · exact ⟨_, e⟩
  · obtain ⟨t, _, h, -⟩ := exec_answers (o.withOperand (if o.needsOperand then s.memRead (s.pc + 1#8) else 0x00#8)) (s.afterFetch o)
    exact ⟨t, e.trans h⟩

end Sys2Proof.Machine
end

