-- ==== Sys2Proof/Laws/Run.lean ====
section
/-! SUPPORT. The loops unrolled by one step, and what a step leaves alone whatever it runs. -/

namespace Sys2Proof.Machine

/-- An outcome that holds a state is that next state. -/
theorem next_of_nextOf {o : Host.Outcome State Fault Refusal} {t : State} (h : nextOf o = some t) : o = .next t := by
  cases o with
  | next s => exact congrArg _ (Option.some.inj h)
  | fault r => cases h
  | refused r => cases h

theorem State.after_succ {s t : State} (h : step s = .next t) (n : Nat) : s.after (n + 1) = t.after n := by
  rw [State.after, h]; rfl

/-- R77, one iteration of `run()`. -/
theorem State.runFor_succ {s t : State} (h : step s = .next t) (n : Nat) :
    s.runFor (n + 1) = match t.runEnd with
      | some e => .next (some e, t)
      | none => t.runFor n := by
  cases hr : t.runEnd <;> simp [State.runFor, h, hr]

/-- R115, one iteration of the loop of Step N and Continue. -/
theorem State.loopFor_succ (bp : Breakpoints) {s t : State} (h : step s = .next t) (n : Nat) :
    s.loopFor bp (n + 1) = match t.stopReason bp with
      | some r => .next (some r, t)
      | none => t.loopFor bp n := by
  cases hr : t.stopReason bp <;> simp [State.loopFor, h, hr]

/-- When Step N and Continue stop (R115): on the outcome, or else on the post-step `pc`. -/
theorem State.stopReason_eq_some_iff {bp : Breakpoints} {t : State} {r : StopReason} :
    t.stopReason bp = some r ↔
      (∃ e, t.runEnd = some e ∧ r = e.stopReason) ∨ (t.runEnd = none ∧ t.pc ∈ bp ∧ r = .breakpoint t.pc) := by
  unfold State.stopReason
  cases t.runEnd <;> simp [eq_comm]

/-- When they go on. -/
theorem State.stopReason_eq_none_iff {bp : Breakpoints} {t : State} :
    t.stopReason bp = none ↔ t.runEnd = none ∧ t.pc ∉ bp := by
  unfold State.stopReason
  cases t.runEnd <;> simp

/-- R4: no step writes a parameter. -/
theorem step_config {s t : State} (h : step s = .next t) : t.config = s.config := by
  rcases step_cases s with ⟨-, e⟩ | ⟨-, -, e⟩ | ⟨o, -, -, -, -, e⟩ | ⟨o, -, -, -, e⟩
  · rw [h] at e; cases e; rfl
  · rw [h] at e; cases e; rfl
  · rw [h] at e; cases e; rfl
  · obtain ⟨t', _, h', -, -, -, hc⟩ :=
      exec_answers (o.withOperand (if o.needsOperand then s.memRead (s.pc + 1#8) else 0x00#8)) (s.afterFetch o)
    have ht := h.symm.trans (e.trans h')
    cases ht
    exact hc

end Sys2Proof.Machine
end

