-- ==== Sys2Proof/Tests/Slice0.lean ====
section
/-! SUPPORT. The model's own tests: expected values come from `95_test_vectors.md` (named by example or section there) or
from the rules' own examples; and, after them, a witness for the hypotheses of each statement of
`Certificates/Slice0/Obligations.lean`. -/

namespace Sys2Proof.Tests

open Sys2Proof.Machine

/-- A small state: the default reset with `pc`, `acc` and the listed memory. -/
def at_ (pc acc : Byte) (m : Memory) : State := { State.reset with pc := pc, acc := acc, mem := m }

/-- The state after one step. -/
def stepped (s : State) : Option State := nextOf (step s)

/-! ## Well-formedness: an ill-formed term for each check, refused -/

theorem test_admissible_refuses_shared_code : ¬ ({ OpcodeMap.classic with jzCode := 0x9#4 } : OpcodeMap).Admissible := by
  decide

theorem test_config_refuses_both_reset_flags :
    ¬ ({ defaultConfig with resetZero := true, resetNegative := true } : Config).WF := by decide

theorem test_config_refuses_bad_map :
    ¬ ({ defaultConfig with opcodes := { OpcodeMap.classic with hltCode := 0x0#4 } } : Config).WF := by decide

theorem test_fitsAt_refuses_operand_past_the_end : ¬ (Instr.lda 0x80#8).FitsAt 0xFF#8 := by decide

theorem test_fitsAt_accepts_one_byte_at_the_end : Instr.hlt.FitsAt 0xFF#8 := by decide

theorem test_memory_refuses_unsorted : Memory.wf [(5, 0x01#8), (3, 0x02#8)] = false := by decide

theorem test_memory_refuses_listed_zero : Memory.wf [(3, 0x00#8)] = false := by decide

theorem test_memory_refuses_address_256 : Memory.wf [(256, 0x01#8)] = false := by decide

theorem test_breakpoints_refuse_unsorted : ¬ Breakpoints.WF [0x0A#8, 0x02#8] := by decide

/-! ## Decoding: words written out bit by bit from R51, R52 and the encoding lines of R85 to R95 -/

theorem test_decode_nop : decode [0b00001011#8] = .ok (.nop, []) := by decide
theorem test_decode_sta : decode [0b00011100#8, 0b00000101#8] = .ok (.sta 0x05#8, []) := by decide
theorem test_decode_lda : decode [0b00101111#8, 0b10000000#8] = .ok (.lda 0x80#8, []) := by decide
theorem test_decode_add : decode [0b00110001#8, 0b10000001#8] = .ok (.add 0x81#8, []) := by decide
theorem test_decode_or : decode [0b01001000#8, 0b01000000#8] = .ok (.or 0x40#8, []) := by decide
theorem test_decode_and : decode [0b01011010#8, 0b01000001#8] = .ok (.and 0x41#8, []) := by decide
theorem test_decode_not : decode [0b01100110#8] = .ok (.not, []) := by decide
theorem test_decode_jmp : decode [0b10001110#8, 0b11111110#8] = .ok (.jmp 0xFE#8, []) := by decide
theorem test_decode_jn : decode [0b10011001#8, 0b00000110#8] = .ok (.jn 0x06#8, []) := by decide
theorem test_decode_jz : decode [0b10100101#8, 0b00001010#8] = .ok (.jz 0x0A#8, []) := by decide
theorem test_decode_hlt : decode [0b11110101#8] = .ok (.hlt, []) := by decide

/-- Section 2.2: the bytes of the five unused high nibbles are invalid, each reported whole. -/
theorem test_decode_invalid :
    [0x70#8, 0x7C#8, 0xB0#8, 0xC3#8, 0xD4#8, 0xEF#8].map (fun b => decode [b, 0x00#8]) =
      [0x70#8, 0x7C#8, 0xB0#8, 0xC3#8, 0xD4#8, 0xEF#8].map (fun b => .error (.invalidInstruction b)) := by decide

theorem test_decode_missing_argument : decode [0x20#8] = .error .missingArgument := by decide

theorem test_encode_sta : encode (.sta 0x82#8) = [0x10#8, 0x82#8] := by decide

/-- The table's numbering: the operand byte is bits 15..8; an operand the table gives no bits is zero. -/
theorem test_decodeTableWord :
    decodeTableWord 16 0x8020 = some (.lda 0x80#8) ∧ decodeTableWord 8 0x20 = some (.lda 0x00#8) ∧
      decodeTableWord 8 0x8020 = some (.lda 0x00#8) ∧ decodeTableWord 8 0x70 = none := by decide

theorem test_withFetchWord_runs_at_reset :
    stepped (State.reset.withFetchWord 16 0x4280) =
      some { State.reset with pc := 0x42#8, mem := [(0, 0x80#8), (1, 0x42#8)], outcome := some .normal } := by decide

/-! ## One step of each instruction -/

/-- Section 2.3, third row: NOP at 255. -/
theorem test_nop_at_255 : stepped (at_ 0xFF#8 0x33#8 []) =
    some { at_ 0x00#8 0x33#8 [] with halted := true, outcome := some .normal } := by decide

/-- Section 2.4: `acc = 0xF6` stores 0xF6 and reports -10. -/
theorem test_sta_reports_signed : stepped (at_ 0x00#8 0xF6#8 [(0, 0x10#8), (1, 0x40#8)]) =
    some { at_ 0x02#8 0xF6#8 [(0, 0x10#8), (1, 0x40#8), (64, 0xF6#8)] with
      outcome := some (.write 0x40#8 (-10)) } := by decide

/-- Section 2.4: STA 0 of `acc = 0` over its own opcode byte; the zero byte is no longer listed. -/
theorem test_sta_over_itself : stepped (at_ 0x00#8 0x00#8 [(0, 0x10#8)]) =
    some { at_ 0x02#8 0x00#8 [] with outcome := some (.write 0x00#8 0) } := by decide

/-- E3: LDA of zero from reset. -/
theorem test_lda_zero : stepped (at_ 0x00#8 0x00#8 [(0, 0x20#8), (1, 0x80#8)]) =
    some { at_ 0x02#8 0x00#8 [(0, 0x20#8), (1, 0x80#8)] with zero := true, outcome := some .normal } := by decide

/-- Section 2.4, last row: a data read of 255 does not set `H`. -/
theorem test_lda_255 : stepped (at_ 0x00#8 0x00#8 [(0, 0x20#8), (1, 0xFF#8), (255, 0xFF#8)]) =
    some { at_ 0x02#8 0xFF#8 [(0, 0x20#8), (1, 0xFF#8), (255, 0xFF#8)] with
      negative := true, outcome := some .normal } := by decide

/-- E2: 120 + 50 wraps to -86. -/
theorem test_add_wraps : (stepped (at_ 0x00#8 0x78#8 [(0, 0x30#8), (1, 0x80#8), (128, 0x32#8)])).map
    (fun t => (t.acc, t.acc.toInt, t.zero, t.negative)) = some (0xAA#8, -86, false, true) := by decide

/-- Section 2.5: -128 + -128 is zero. -/
theorem test_add_to_zero : (stepped (at_ 0x00#8 0x80#8 [(0, 0x30#8), (1, 0x80#8), (128, 0x80#8)])).map
    (fun t => (t.acc, t.zero, t.negative)) = some (0x00#8, true, false) := by decide

/-- Section 2.6, OR: 0x55 or 0x2A. -/
theorem test_or : (stepped (at_ 0x00#8 0x55#8 [(0, 0x40#8), (1, 0x40#8), (64, 0x2A#8)])).map
    (fun t => (t.pc, t.acc, t.zero, t.negative)) = some (0x02#8, 0x7F#8, false, false) := by decide

/-- Section 2.6, AND: 0xAA and 0xF0. -/
theorem test_and : (stepped (at_ 0x00#8 0xAA#8 [(0, 0x50#8), (1, 0x41#8), (65, 0xF0#8)])).map
    (fun t => (t.pc, t.acc, t.zero, t.negative)) = some (0x02#8, 0xA0#8, false, true) := by decide

/-- Section 2.6, NOT: 0x05. -/
theorem test_not : (stepped (at_ 0x00#8 0x05#8 [(0, 0x60#8)])).map
    (fun t => (t.pc, t.acc, t.zero, t.negative)) = some (0x01#8, 0xFA#8, false, true) := by decide

/-- Section 2.7: JMP with its operand at 255 ends at the target with `H` set. -/
theorem test_jmp_operand_at_255 : (stepped (at_ 0xFE#8 0x00#8 [(254, 0x80#8), (255, 0x10#8)])).map
    (fun t => (t.pc, t.halted, t.outcome)) = some (0x10#8, true, some .normal) := by decide

/-- Section 2.7: JN taken, and not taken. -/
theorem test_jn_taken : (stepped { at_ 0x02#8 0x00#8 [(2, 0x90#8), (3, 0x06#8)] with negative := true }).map
    (fun t => t.pc) = some 0x06#8 := by decide

theorem test_jn_not_taken : (stepped { at_ 0x02#8 0x00#8 [(2, 0x90#8), (3, 0x06#8)] with zero := true }).map
    (fun t => t.pc) = some 0x04#8 := by decide

/-- Section 2.7: JZ taken; and from reset not taken, though `acc` is 0. -/
theorem test_jz_taken : (stepped { at_ 0x06#8 0x00#8 [(6, 0xA0#8), (7, 0x0A#8)] with zero := true }).map
    (fun t => t.pc) = some 0x0A#8 := by decide

theorem test_jz_tests_the_flag : (stepped (at_ 0x00#8 0x00#8 [(0, 0xA0#8), (1, 0x40#8)])).map
    (fun t => t.pc) = some 0x02#8 := by decide

/-- Section 2.8: HLT leaves the engine Running. -/
theorem test_hlt : stepped (at_ 0x06#8 0x00#8 [(6, 0xFF#8)]) =
    some { at_ 0x07#8 0x00#8 [(6, 0xFF#8)] with outcome := some .halted } := by decide

/-- Section 2.8, last row: `HLT_STICKY = true`. -/
theorem test_hlt_sticky :
    (stepped { at_ 0x06#8 0x00#8 [(6, 0xF0#8)] with config := { defaultConfig with hltSticky := true } }).map
      (fun t => (t.pc, t.halted, t.hltLatched, t.outcome)) = some (0x07#8, false, true, some .halted) := by decide

/-! ## Exceptions (section 2.9) -/

theorem test_endOfProgram : stepped { at_ 0x10#8 0x33#8 [(16, 0x20#8)] with halted := true } =
    some { at_ 0x10#8 0x33#8 [(16, 0x20#8)] with
      halted := true, outcome := some (.exception .endOfProgram) } := by decide

theorem test_invalid_at_255_is_not_missing_argument : stepped (at_ 0xFF#8 0x33#8 [(255, 0xB0#8)]) =
    some { at_ 0x00#8 0x33#8 [(255, 0xB0#8)] with
      halted := true, outcome := some (.exception (.invalidInstruction 0xB0#8)) } := by decide

theorem test_missing_argument : stepped (at_ 0xFF#8 0x33#8 [(0, 0x80#8), (255, 0x20#8)]) =
    some { at_ 0x00#8 0x33#8 [(0, 0x80#8), (255, 0x20#8)] with
      halted := true, outcome := some (.exception .missingArgument) } := by decide

/-- Section 2.7, last row: a JZ that would not be taken still misses its operand. -/
theorem test_jz_missing_argument : (stepped (at_ 0xFF#8 0x00#8 [(255, 0xA0#8)])).map (fun t => t.outcome) =
    some (some (.exception .missingArgument)) := by decide

/-! ## The loader (E6, E7, R139, R61) -/

/-- E6, R144. -/
theorem test_load_example : load "1 2 3\norg 20\n7 8 9".toList [] =
    ({ cursor := 23,
       buffer := [(0, 0x01#8), (1, 0x02#8), (2, 0x03#8), (20, 0x07#8), (21, 0x08#8), (22, 0x09#8)] }, none) := by
  decide

/-- E7: the malformed token on line 3, after a comment and a blank line. -/
theorem test_load_line_number : (load "1 ; two 3\n\n 4x".toList []).2 = some (.invalidDigit ['4', 'x'] 3) := by decide

/-- R61, C5: a mnemonic is no token of the loader. -/
theorem test_load_refuses_mnemonic :
    load "LDA 0x80".toList [] = ({ cursor := 0, buffer := [] }, some (.invalidDigit ['L', 'D', 'A'] 1)) := by decide

/-- R139, R140: the bounds of the numeric tokens; `Org`, `0X`, `+5`, a bare `0x` and a bare `-` are refused (D18). -/
theorem test_numbers :
    (["0xfF", "0x100", "-128", "-129", "-0", "255", "256", "0x", "-", "+5", "0X1", "Org"].map
      (fun w => numberOf w.toList)) =
      [.ok 0xFF#8, .error .outOfRange, .ok 0x80#8, .error .outOfRange, .ok 0x00#8, .ok 0xFF#8, .error .outOfRange,
       .error .invalidDigit, .error .invalidDigit, .error .invalidDigit, .error .invalidDigit,
       .error .invalidDigit] := by decide

/-- R140, D18: `org -1` sets the cursor to 255; the second write after it overflows; a last `org` is an error. -/
theorem test_load_org :
    load "ORG -1 7 8".toList [] = ({ cursor := 256, buffer := [(255, 0x07#8)] }, some .memoryOverflow) ∧
      (load "5\norg".toList []).2 = some (.invalidDigit ['o', 'r', 'g'] 2) := by decide

/-! ## The control layer (E8, E9) -/

/-- E8: a breakpoint at 10 stops the loop with `pc = 10`, the instruction there not executed. -/
theorem test_breakpoint :
    (match Session.stepN 5 { engine := at_ 0x00#8 0x00#8 [(0, 0x80#8), (1, 0x0A#8), (10, 0xF0#8)],
                             breakpoints := [0x0A#8] } with
      | .next (r, c) => some (r, c.engine.pc, c.engine.outcome)
      | _ => none) = some (.stopped (.breakpoint 0x0A#8), 0x0A#8, some .normal) := by decide

theorem test_stepN_zero :
    (match Session.stepN 0 (Session.new State.reset) with
      | .next (r, c) => some (r, c)
      | _ => none) = some (.stepsTaken 0, Session.new State.reset) := by decide

/-- E9. -/
theorem test_breakpoint_no_ops :
    (({ engine := State.reset, breakpoints := [0x0A#8] } : Session).setBreakpoint 0x0A#8).1 = .noOp ∧
      ((Session.new State.reset).clearBreakpoint 0x0A#8).1 = .noOp := by decide

/-! ## Witnesses: states and operands that meet the hypotheses of each statement -/

/-- The step of a state, as an equation. -/
theorem step_eq {s t : State} (h : stepped s = some t) : step s = .next t := next_of_nextOf h

/-- `JMP` 0x10 with its operand at 255. -/
def jumpAtEnd : State := at_ 0xFE#8 0x00#8 [(254, 0x80#8), (255, 0x10#8)]

/-- LDA 0x80 at address 0, the byte -1 at 0x80. -/
def loadMinusOne : State := at_ 0x00#8 0x00#8 [(0, 0x20#8), (1, 0x80#8), (128, 0xFF#8)]

/-- STA 0x05 at address 0, `acc` 10 (E4). -/
def storeTen : State := at_ 0x00#8 0x0A#8 [(0, 0x10#8), (1, 0x05#8)]

/-- HLT at address 6 with the parameter `HLT_STICKY` at a value. -/
def haltAtSix (sticky : Bool) : State :=
  { at_ 0x06#8 0x00#8 [(6, 0xF0#8)] with config := { defaultConfig with hltSticky := sticky } }

theorem witness_StaStoresAccAndReportsTheWrite : storeTen.mem.wf = true ∧ effectiveAddress 0xFF#8 = 0xFF#8 := by decide

theorem witness_JnLoadsPcIfNegative :
    ({ State.reset with negative := true } : State).negative = true ∧ State.reset.negative = false := by decide

theorem witness_JzLoadsPcIfZeroFlag :
    ({ State.reset with zero := true } : State).zero = true ∧ State.reset.zero = false := by decide

theorem witness_HltReportsHalted :
    (haltAtSix false).config.hltSticky = false ∧ (haltAtSix true).config.hltSticky = true := by decide

theorem witness_SetZNDescribesTheResult :
    0 < (0x01#8).toInt ∧ (Instr.not).opcode ∈ [Opcode.lda, .add, .or, .and, .not] ∧
      exec .not State.reset =
        .next { State.reset with acc := 0xFF#8, negative := true, outcome := some .normal } :=
  ⟨by decide, by decide, next_of_nextOf (by decide)⟩

theorem witness_FetchAdvancesAndDetectsTheWrap :
    ({ State.reset with halted := true } : State).halted = true ∧ State.reset.halted = false ∧
      ∃ (s s' : State) (b : Byte) (o : Opcode), s.hltBlocked = false ∧ s.fetch = some (b, s') ∧
        s.config.opcodes.lookup (highNibble b) = some o ∧ o.needsOperand = true ∧ s'.fetch = none :=
  ⟨by decide, by decide, at_ 0xFF#8 0x00#8 [(255, 0x20#8)],
    { at_ 0x00#8 0x00#8 [(255, 0x20#8)] with halted := true }, 0x20#8, .lda, by decide, by decide, by decide, by decide,
    by decide⟩

/-- The last clause: HLT with a nonzero low nibble at 255. -/
theorem witness_FetchAdvancesAndDetectsTheWrap_one_byte :
    let s := at_ 0xFF#8 0x00#8 [(255, 0xF5#8)]
    ¬ s.Blocked ∧ s.pc = 0xFF#8 ∧ s.config.opcodes.lookup (highNibble (s.memRead 0xFF#8)) = some .hlt ∧
      Opcode.hlt.needsOperand = false := by decide

theorem witness_CanonicalMemoriesAreExtensional :
    Memory.wf [(0, 0x01#8), (255, 0x02#8)] = true ∧
      ∀ a : Byte, Memory.readCell [(0, 0x01#8), (255, 0x02#8)] a.toNat =
        Memory.readCell (Memory.writeCell [(0, 0x01#8)] 255 0x02#8) a.toNat :=
  ⟨by decide, fun _ => rfl⟩

theorem witness_DecodeInvertsEncode :
    OpcodeMap.classic.Admissible ∧ ({ OpcodeMap.classic with nopCode := 0x7#4 } : OpcodeMap).Admissible := by decide

theorem witness_EncodeInvertsDecode :
    decodeWith OpcodeMap.classic (0x2F#8 :: [0x80#8, 0xF0#8]) = .ok (.lda 0x80#8, [0xF0#8]) := by decide

theorem witness_DecoderSelectsByHighNibble :
    highNibble 0x20#8 = highNibble 0x2F#8 ∧ OpcodeMap.classic.Admissible ∧
      ∀ o, decodeOpcode OpcodeMap.classic 0x7C#8 ≠ .ok o :=
  ⟨by decide, by decide, fun o => by cases o <;> decide⟩

theorem witness_StepRunsTheDecodedInstruction :
    ¬ jumpAtEnd.Blocked ∧
      decodeWith jumpAtEnd.config.opcodes [jumpAtEnd.memRead jumpAtEnd.pc, jumpAtEnd.memRead (jumpAtEnd.pc + 1#8)] =
        .ok (.jmp 0x10#8, []) ∧ (Instr.jmp 0x10#8).FitsAt jumpAtEnd.pc := by decide

theorem witness_StepRunsTheEncodedInstruction :
    jumpAtEnd.config.opcodes.Admissible ∧ ¬ jumpAtEnd.Blocked ∧ (Instr.jmp 0x10#8).FitsAt jumpAtEnd.pc ∧
      ∀ (k : Nat) (b : Byte), (encodeWith jumpAtEnd.config.opcodes 0x0#4 (.jmp 0x10#8))[k]? = some b →
        jumpAtEnd.memRead (jumpAtEnd.pc + BitVec.ofNat 8 k) = b := by
  refine ⟨by decide, by decide, by decide, fun k b h => ?_⟩
  match k, h with
  | 0, h => cases h; decide
  | 1, h => cases h; decide
  | k + 2, h => cases h

theorem witness_PlacedWordRuns :
    State.reset.config.opcodes = OpcodeMap.classic ∧ State.reset.mem.wf = true ∧
      decodeTableWord 8 0xF5 = some .hlt ∧ Instr.hlt.FitsAt 0xFF#8 ∧
      decodeTableWord 16 0xFF80 = some (.jmp 0xFF#8) ∧ (Instr.jmp 0xFF#8).FitsAt 0xFE#8 := by decide

theorem witness_EveryStepReportsOneOutcome :
    exec (.sta 0x05#8) storeTen = .next { storeTen with
      mem := [(0, 0x10#8), (1, 0x05#8), (5, 0x0A#8)], outcome := some (.write 0x05#8 10) } :=
  next_of_nextOf (by decide)

theorem witness_EndOfProgramRepeatsUntilReset : ({ State.reset with halted := true } : State).halted = true := by decide

theorem witness_InvalidOpcodeEndsTheStep :
    ¬ (at_ 0xFF#8 0x00#8 [(255, 0x7C#8)]).Blocked ∧
      (at_ 0xFF#8 0x00#8 [(255, 0x7C#8)]).config.opcodes.lookup
        (highNibble ((at_ 0xFF#8 0x00#8 [(255, 0x7C#8)]).memRead 0xFF#8)) = none ∧
      decodeOpcode OpcodeMap.classic (opcodeByte 0x2#4 0xF#4) = .ok .lda := by decide

theorem witness_ThreeExceptionsUnderTheirConditions :
    (∃ s t, step s = .next t ∧ t.outcome = some (.exception .endOfProgram)) ∧
    (∃ s t, step s = .next t ∧ t.outcome = some (.exception (.invalidInstruction 0x7C#8))) ∧
    (∃ s t, step s = .next t ∧ t.outcome = some (.exception .missingArgument)) :=
  ⟨⟨{ State.reset with halted := true },
      { State.reset with halted := true, outcome := some (.exception .endOfProgram) }, step_eq (by decide), rfl⟩,
    ⟨at_ 0xFF#8 0x00#8 [(255, 0x7C#8)],
      { at_ 0x00#8 0x00#8 [(255, 0x7C#8)] with
        halted := true, outcome := some (.exception (.invalidInstruction 0x7C#8)) }, step_eq (by decide), rfl⟩,
    ⟨at_ 0xFF#8 0x00#8 [(255, 0x20#8)],
      { at_ 0x00#8 0x00#8 [(255, 0x20#8)] with
        halted := true, outcome := some (.exception .missingArgument) }, step_eq (by decide), rfl⟩⟩

theorem witness_HaltedTracksFetchesAtLastAddress :
    ∃ t, step jumpAtEnd = .next t ∧ t.halted = true ∧ jumpAtEnd.halted = false :=
  ⟨{ jumpAtEnd with pc := 0x10#8, halted := true, outcome := some .normal }, step_eq (by decide), rfl, rfl⟩

theorem witness_HltIsTerminalExactlyIfSticky :
    ∀ sticky, (haltAtSix sticky).nextOpcode = some .hlt ∧ ¬ (haltAtSix sticky).Blocked ∧
      ∃ t, step (haltAtSix sticky) = .next t := by
  intro sticky
  refine ⟨?_, ?_, step_answers _⟩ <;> cases sticky <;> decide

theorem witness_reset_inv : State.reset.Inv := ⟨by decide, by decide, by decide, by decide⟩

theorem witness_StepKeepsTheInvariant :
    State.reset.Inv ∧ step State.reset = .next { State.reset with pc := 0x01#8, outcome := some .normal } :=
  ⟨witness_reset_inv, step_eq (by decide)⟩

theorem witness_ResetMeetsTheInvariant :
    ({ defaultConfig with resetAcc := 0x80#8, resetNegative := true, hltSticky := true } : Config).WF ∧
      Memory.wf [(0, 0x20#8), (255, 0xF0#8)] = true := by decide

theorem witness_EveryReachableStateKeepsTheInvariant :
    Reachable { State.reset with pc := 0x01#8, outcome := some .normal } :=
  Reachable.transact State.reset _ .step (.outcome (some .normal))
    (Reachable.reset defaultConfig [] (by decide) (by decide)) trivial
    (by simp [State.transact, witness_StepKeepsTheInvariant.2])

theorem witness_FlagsDescribeAccFromTheFirstFlagWrite :
    loadMinusOne.nextOpcode = some .lda ∧ Opcode.lda.writesFlags = true ∧
      (∃ t, step loadMinusOne = .next t ∧ t.outcome = some .normal) ∧
      ({ State.reset with zero := true } : State).FlagsDescribeAcc :=
  ⟨by decide, by decide,
    ⟨{ loadMinusOne with pc := 0x02#8, acc := 0xFF#8, negative := true, outcome := some .normal }, step_eq (by decide),
      rfl⟩, ⟨by decide, by decide⟩⟩

theorem witness_OnlyFlagWritersChangeAccAndFlags :
    ∃ t, step loadMinusOne = .next t ∧ t.acc ≠ loadMinusOne.acc ∧ t.negative ≠ loadMinusOne.negative :=
  ⟨{ loadMinusOne with pc := 0x02#8, acc := 0xFF#8, negative := true, outcome := some .normal }, step_eq (by decide),
    by decide, by decide⟩

theorem witness_EveryMemoryChangeIsReported :
    storeTen.mem.wf = true ∧ ∃ t, step storeTen = .next t ∧ t.memRead 0x05#8 ≠ storeTen.memRead 0x05#8 :=
  ⟨by decide, { storeTen with
      pc := 0x02#8, mem := [(0, 0x10#8), (1, 0x05#8), (5, 0x0A#8)], outcome := some (.write 0x05#8 10) },
    step_eq (by decide), by decide⟩

/-- Two states that differ at address 0x90 alone, which LDA 0x80 at address 0 does not read. -/
theorem witness_StepDependsOnlyOnWhatItReads :
    let other : State := { loadMinusOne with mem := [(0, 0x20#8), (1, 0x80#8), (128, 0xFF#8), (144, 0x01#8)] }
    loadMinusOne.AgreeOutside (fun a => a = 0x90#8) other ∧ (∀ a, loadMinusOne.Reads a → a ≠ 0x90#8) ∧
      loadMinusOne.mem.wf = true ∧ other.mem.wf = true ∧ (∃ t, step loadMinusOne = .next t) ∧
      ∃ t, step other = .next t := by
  refine ⟨⟨rfl, by decide⟩, ?_, by decide, by decide, step_answers _, step_answers _⟩
  rintro a (rfl | ⟨o, ho, -, rfl | ⟨-, rfl⟩⟩) <;> decide

theorem witness_StoreIsSeenByTheNextFetch :
    let s := at_ 0x05#8 0x7C#8 []
    s.mem.wf = true ∧ s.config.opcodes.lookup (highNibble s.acc) = none ∧
      ∃ t, exec (.sta s.pc) s = .next t ∧ ¬ t.Blocked :=
  ⟨by decide, by decide, { at_ 0x05#8 0x7C#8 [(5, 0x7C#8)] with outcome := some (.write 0x05#8 124) },
    next_of_nextOf (by decide), by decide⟩

/-- A run that returns, and one that never does: the two sides that R77 tells apart. -/
theorem witness_RunReturnsAtTheFirstEnd :
    (haltAtSix false).RunReturns .halted { haltAtSix false with pc := 0x07#8, outcome := some .halted } ∧
      (at_ 0x00#8 0x00#8 [(0, 0x80#8)]).RunsForever := by
  constructor
  · refine ⟨1, ?_⟩
    rw [State.runFor_succ (step_eq (t := { haltAtSix false with pc := 0x07#8, outcome := some .halted }) (by decide))]
    rfl
  · let looping : State := { at_ 0x00#8 0x00#8 [(0, 0x80#8)] with outcome := some .normal }
    have enter : step (at_ 0x00#8 0x00#8 [(0, 0x80#8)]) = .next looping := step_eq (by decide)
    have again : step looping = .next looping := step_eq (by decide)
    have stays : ∀ n, ∃ t, looping.runFor n = .next (none, t) := by
      intro n
      induction n with
      | zero => exact ⟨_, rfl⟩
      | succ n ih => rw [State.runFor_succ again]; exact ih
    intro n
    cases n with
    | zero => exact ⟨_, rfl⟩
    | succ n => rw [State.runFor_succ enter]; exact stays n

/-- `JMP 0` at address 0 meets the hypotheses of the clause on programs that never end. -/
theorem witness_RunReturnsAtTheFirstEnd_no_end :
    ¬ (at_ 0x00#8 0x00#8 [(0, 0x80#8)]).Blocked ∧
      ∀ n u, (at_ 0x00#8 0x00#8 [(0, 0x80#8)]).after n = some u →
        ∃ o, u.nextOpcode = some o ∧ o ≠ .hlt ∧ o.fetchesLastAddress u.pc = false := by
  refine ⟨by decide, ?_⟩
  let looping : State := { at_ 0x00#8 0x00#8 [(0, 0x80#8)] with outcome := some .normal }
  have enter : step (at_ 0x00#8 0x00#8 [(0, 0x80#8)]) = .next looping := step_eq (by decide)
  have again : step looping = .next looping := step_eq (by decide)
  have stays : ∀ n u, looping.after n = some u → u = looping := by
    intro n
    induction n with
    | zero => intro u h; cases h; rfl
    | succ n ih => intro u h; rw [State.after_succ again] at h; exact ih u h
  intro n u h
  cases n with
  | zero => cases h; exact ⟨.jmp, by decide, by decide, by decide⟩
  | succ n =>
    rw [State.after_succ enter] at h
    rw [stays n u h]
    exact ⟨.jmp, by decide, by decide, by decide⟩

/-- The clause on `H`. -/
theorem witness_RunReturnsAtTheFirstEnd_ended : ({ State.reset with halted := true } : State).halted = true := by decide

/-- HLT at address 6 with a jump behind it, which `run()` does not reach. -/
theorem witness_JumpFreeRunsEndWithin257Steps_behind_hlt :
    let s := at_ 0x06#8 0x00#8 [(6, 0xF0#8), (7, 0x80#8)]
    ∀ n u o, s.after n = some u → (∀ k, k < n → ∃ v, s.after (k + 1) = some v ∧ v.runEnd = none) → ¬ u.Blocked →
      u.nextOpcode = some o → o ≠ .jmp ∧ o ≠ .jn ∧ o ≠ .jz := by
  intro s n u o hu hk _ ho
  cases n with
  | zero => cases hu; cases (show s.nextOpcode = some .hlt by decide).symm.trans ho; decide
  | succ n =>
    obtain ⟨v, hv, hv'⟩ := hk 0 (Nat.succ_pos n)
    rw [State.after_succ (step_eq (t := { s with pc := 0x07#8, outcome := some .halted }) (by decide))] at hv
    cases hv
    cases hv'

/-- `H` set with a jump at `pc`, where no step executes anything. -/
theorem witness_JumpFreeRunsEndWithin257Steps_ended :
    let s : State := { at_ 0x00#8 0x00#8 [(0, 0x80#8)] with halted := true }
    ∀ n u o, s.after n = some u → (∀ k, k < n → ∃ v, s.after (k + 1) = some v ∧ v.runEnd = none) → ¬ u.Blocked →
      u.nextOpcode = some o → o ≠ .jmp ∧ o ≠ .jn ∧ o ≠ .jz := by
  intro s n u o hu hk hb _
  cases n with
  | zero => cases hu; exact absurd (.inl rfl) hb
  | succ n =>
    obtain ⟨v, hv, hv'⟩ := hk 0 (Nat.succ_pos n)
    rw [State.after_succ (step_eq (t := { s with outcome := some (.exception .endOfProgram) }) (by decide))] at hv
    cases hv
    cases hv'

/-- Memory of zeros runs as NOPs up to the end of memory, 257 steps: the hypothesis holds of the reset state. -/
theorem witness_JumpFreeRunsEndWithin257Steps :
    ∀ n u o, State.reset.after n = some u →
      (∀ k, k < n → ∃ v, State.reset.after (k + 1) = some v ∧ v.runEnd = none) → ¬ u.Blocked →
      u.nextOpcode = some o → o ≠ .jmp ∧ o ≠ .jn ∧ o ≠ .jz := by
  have nops : ∀ n (s : State), s.mem = [] → s.config = defaultConfig →
      ∀ u, s.after n = some u → u.mem = [] ∧ u.config = defaultConfig := by
    intro n
    induction n with
    | zero => intro s hm hc u h; cases h; exact ⟨hm, hc⟩
    | succ n ih =>
      intro s hm hc u h
      have hn : s.nextOpcode = some .nop := by simp [State.nextOpcode, State.memRead, hm, hc]; decide
      rcases step_cases s with ⟨-, e⟩ | ⟨-, h', e⟩ | ⟨o, -, h', h1, -, e⟩ | ⟨o, -, h', -, e⟩
      · rw [State.after_succ e] at h; exact ih _ (by simpa using hm) (by simpa using hc) u h
      · rw [hn] at h'; cases h'
      · rw [hn] at h'; cases h'; cases h1
      · rw [hn] at h'; cases h'
        rw [State.after_succ (e.trans (exec_nop_eq _))] at h
        exact ih _ (by simpa using hm) (by simpa using hc) u h
  intro n u o h _ _ ho
  obtain ⟨hm, hc⟩ := nops n State.reset rfl rfl u h
  have hn : u.nextOpcode = some .nop := by simp [State.nextOpcode, State.memRead, hm, hc]; decide
  rw [hn] at ho
  cases ho
  decide

theorem witness_BreakpointStopsBeforeTheInstruction :
    ∃ c', ({ engine := jumpAtEnd, breakpoints := [0x10#8] } : Session).ContinueStops (.breakpoint 0x10#8) c' := by
  refine ⟨_, 1, { jumpAtEnd with pc := 0x10#8, halted := true, outcome := some .normal }, ?_, rfl⟩
  rw [State.loopFor_succ _ (step_eq (t := { jumpAtEnd with pc := 0x10#8, halted := true, outcome := some .normal })
    (by decide))]
  rfl

/-- The other direction: the first step leaves `pc` at 0x10, which is in the set, and reports no end. -/
theorem witness_BreakpointStopsBeforeTheInstruction_conversely :
    let t : State := { jumpAtEnd with pc := 0x10#8, halted := true, outcome := some .normal }
    t.pc = 0x10#8 ∧ 0x10#8 ∈ ([0x10#8] : Breakpoints) ∧ t.runEnd = none ∧ jumpAtEnd.after (0 + 1) = some t := by
  refine ⟨rfl, by decide, rfl, ?_⟩
  rw [State.after_succ (step_eq (t := { jumpAtEnd with pc := 0x10#8, halted := true, outcome := some .normal })
    (by decide))]
  rfl

/-- The clauses on the first step: one that ends in `Halted`, and one that leaves `pc` at 0x10 with no end, which is in
one set and not in another. -/
theorem witness_StepNComposes_first_step :
    (∃ t, step (haltAtSix false) = .next t ∧ t.runEnd = some .halted) ∧
      ∃ t, step jumpAtEnd = .next t ∧ t.runEnd = none ∧ t.pc ∈ ([0x10#8] : Breakpoints) ∧
        t.pc ∉ ([0x11#8] : Breakpoints) :=
  ⟨⟨{ haltAtSix false with pc := 0x07#8, outcome := some .halted }, step_eq (by decide), rfl⟩,
    ⟨{ jumpAtEnd with pc := 0x10#8, halted := true, outcome := some .normal }, step_eq (by decide), rfl, by decide,
      by decide⟩⟩

theorem witness_StepNComposes :
    (∃ c', (Session.new jumpAtEnd).stepN 1 = .next (.stepsTaken 1, c')) ∧
      ∃ c', (Session.new (haltAtSix false)).stepN 1 = .next (.stopped .halted, c') := by
  constructor
  · refine ⟨{ engine := { jumpAtEnd with pc := 0x10#8, halted := true, outcome := some .normal }, breakpoints := [] }, ?_⟩
    rw [Session.stepN, State.loopFor_succ _ (step_eq (s := (Session.new jumpAtEnd).engine)
      (t := { jumpAtEnd with pc := 0x10#8, halted := true, outcome := some .normal }) (by decide))]
    rfl
  · refine ⟨{ engine := { haltAtSix false with pc := 0x07#8, outcome := some .halted }, breakpoints := [] }, ?_⟩
    rw [Session.stepN, State.loopFor_succ _ (step_eq (s := (Session.new (haltAtSix false)).engine)
      (t := { haltAtSix false with pc := 0x07#8, outcome := some .halted }) (by decide))]
    rfl

theorem witness_BreakpointSetAndClear :
    Breakpoints.WF [0x00#8, 0x0A#8, 0xFF#8] ∧ 0x0A#8 ∈ ([0x00#8, 0x0A#8, 0xFF#8] : Breakpoints) ∧
      0x0B#8 ∉ ([0x00#8, 0x0A#8, 0xFF#8] : Breakpoints) := by decide

theorem witness_HostWritesOnlyMemory : State.reset.mem.wf = true := by decide

theorem witness_CommentStrippingKeepsLineBreaks :
    ';' ∉ "1 2 3\norg 20".toList ∧ ';' ∉ "0x20 7 ".toList ∧ '\n' ∉ " load ; it".toList := by decide

theorem witness_FailedLoadKeepsEarlierBytes :
    loadTokens none [⟨['7'], 1⟩] { cursor := 0, buffer := [] } = ({ cursor := 1, buffer := [(0, 0x07#8)] }, none) ∧
      Token.isOrg ⟨['4', 'x'], 2⟩ = false ∧
      loadTokens none [⟨['4', 'x'], 2⟩] { cursor := 1, buffer := [(0, 0x07#8)] } =
        ({ cursor := 1, buffer := [(0, 0x07#8)] }, some (.invalidDigit ['4', 'x'] 2)) ∧
      Token.isOrg ⟨['O', 'R', 'G'], 2⟩ = true ∧ numberOf ['2', '5', '6'] = .error .outOfRange ∧
      (load "7\n256".toList []).2 = some (.outOfRangeInteger ['2', '5', '6'] 2) := by decide

/-- The first clause where the failing token overflows. -/
theorem witness_FailedLoadKeepsEarlierBytes_overflow :
    loadTokens none [⟨['1'], 1⟩] { cursor := 255, buffer := [] } = ({ cursor := 256, buffer := [(255, 0x01#8)] }, none) ∧
      Token.isOrg ⟨['2'], 1⟩ = false ∧
      loadTokens none [⟨['2'], 1⟩] { cursor := 256, buffer := [(255, 0x01#8)] } =
        ({ cursor := 256, buffer := [(255, 0x01#8)] }, some .memoryOverflow) := by decide

theorem witness_WritingPastTheEndOverflows :
    loadTokens none [⟨['1'], 1⟩] { cursor := 255, buffer := [] } = ({ cursor := 256, buffer := [(255, 0x01#8)] }, none) ∧
      loadTokens none [⟨['o', 'r', 'g'], 1⟩, ⟨['-', '1'], 1⟩] { cursor := 0, buffer := [] } =
        ({ cursor := 255, buffer := [] }, none) ∧
      Token.isOrg ⟨['2'], 1⟩ = false ∧ numberOf ['2'] = .ok 0x02#8 ∧
      (load "org 255 1 2".toList []).2 = some .memoryOverflow := by decide

theorem witness_BadTokenReportsItsLine :
    load "1 ; two\n".toList [] = ({ cursor := 1, buffer := [(0, 0x01#8)] }, none) ∧
      ['L', 'D', 'A'] ≠ [] ∧ (∀ c ∈ ['L', 'D', 'A'], c.isWhitespace = false ∧ c ≠ ';') ∧
      numberOf ['L', 'D', 'A'] = .error .invalidDigit ∧ ['L', 'D', 'A'] ≠ ['o', 'r', 'g'] ∧
      ['L', 'D', 'A'] ≠ ['O', 'R', 'G'] :=
  ⟨by decide, by decide, by intro c hc; fin_cases hc <;> decide, by decide, by decide, by decide⟩

theorem witness_LoaderWritesTheListedBytes :
    ([0x20#8, 0x80#8, 0xF0#8] : List Byte).length ≤ 256 ∧ Memory.wf [(7, 0x01#8)] = true := by decide

/-- The clauses on `org`, at the last addresses and with the cursor at 256. -/
theorem witness_LoaderWritesTheListedBytes_org :
    (0xFE#8 : Byte).toNat + ([0x20#8, 0x80#8] : List Byte).length ≤ 256 ∧
      loadTokens none [⟨['1'], 1⟩] { cursor := 255, buffer := [] } = ({ cursor := 256, buffer := [(255, 0x01#8)] }, none) ∧
      Token.isOrg ⟨['O', 'R', 'G'], 1⟩ = true ∧ numberOf ['-', '1'] = .ok 0xFF#8 := by decide

theorem witness_TransactionKeepsTheInvariant :
    State.reset.Inv ∧ Transaction.WF (.reset [(0, 0x20#8)]) ∧ Transaction.WF (.memWrite 0xFF#8 0xF0#8) ∧
      State.reset.transact (.memWrite 0xFF#8 0xF0#8) =
        .next (.nothing, { State.reset with mem := [(255, 0xF0#8)] }) :=
  ⟨witness_reset_inv, rfl, trivial, rfl⟩

end Sys2Proof.Tests
end

/-! The state's family of statements (`10_state.md`): what a canonical memory's cells say, what an execution and a step
can do, seen from the state they leave, and from these the invariants of R18 and the law of `H` (R15). -/

namespace Sys2Proof.Machine

/-! ## The canonical memory as data -/

/-- What the canonical form says of the first listed cell and of the rest. -/
theorem Memory.wfFrom_cons_iff {lo k : Nat} {v : Byte} {m : Memory} :
    Memory.wfFrom lo ((k, v) :: m) = true ↔
      lo ≤ k ∧ k < 256 ∧ v ≠ unwrittenByte ∧ Memory.wfFrom (k + 1) m = true := by
  simp only [Memory.wfFrom, Bool.and_eq_true, decide_eq_true_eq, and_assoc]

@[simp] theorem Memory.readCell_cons_same (k : Nat) (v : Byte) (m : Memory) :
    Memory.readCell ((k, v) :: m) k = v := by
  simp [Memory.readCell]

theorem Memory.readCell_cons_ne {k a : Nat} (v : Byte) (m : Memory) (h : k ≠ a) :
    Memory.readCell ((k, v) :: m) a = m.readCell a := by
  simp [Memory.readCell, h]

/-- The first listed address is one that reads as written, so a memory that reads the same there lists no first address
above it. -/
theorem Memory.head_le_of_readCell_eq {lo lo' k k' : Nat} {v v' : Byte} {m m' : Memory}
    (h : Memory.wfFrom lo ((k, v) :: m) = true) (h' : Memory.wfFrom lo' ((k', v') :: m') = true)
    (heq : Memory.readCell ((k, v) :: m) k = Memory.readCell ((k', v') :: m') k) : k' ≤ k := by
  obtain ⟨-, -, hv, -⟩ := Memory.wfFrom_cons_iff.1 h
  obtain ⟨-, hk', hv', hm'⟩ := Memory.wfFrom_cons_iff.1 h'
  have hform : Memory.wfFrom k' ((k', v') :: m') = true := Memory.wfFrom_cons_iff.2 ⟨le_rfl, hk', hv', hm'⟩
  by_contra hlt
  rw [Memory.readCell_cons_same, Memory.readCell_of_lt hform (by omega)] at heq
  exact hv heq

/-- Canonical tails that read the same below 256 are the same list. -/
theorem Memory.eq_of_readCell_eq {lo lo' : Nat} {m m' : Memory} (h : Memory.wfFrom lo m = true)
    (h' : Memory.wfFrom lo' m' = true) (heq : ∀ a, a < 256 → m.readCell a = m'.readCell a) : m = m' := by
  induction m generalizing lo lo' m' with
  | nil =>
    cases m' with
    | nil => rfl
    | cons p m' =>
      obtain ⟨k, v⟩ := p
      obtain ⟨-, hk, hv, -⟩ := Memory.wfFrom_cons_iff.1 h'
      exact absurd (by simpa using (heq k hk).symm) hv
  | cons p m ih =>
    obtain ⟨k, v⟩ := p
    obtain ⟨-, hk, hv, hm⟩ := Memory.wfFrom_cons_iff.1 h
    cases m' with
    | nil => exact absurd (by simpa using heq k hk) hv
    | cons p' m' =>
      obtain ⟨k', v'⟩ := p'
      obtain ⟨-, hk', -, hm'⟩ := Memory.wfFrom_cons_iff.1 h'
      obtain rfl : k = k' := le_antisymm
        (Memory.head_le_of_readCell_eq h' h (heq k' hk').symm) (Memory.head_le_of_readCell_eq h h' (heq k hk))
      obtain rfl : v = v' := by simpa using heq k hk
      have htail : ∀ a, a < 256 → Memory.readCell m a = Memory.readCell m' a := by
        intro a ha
        by_cases hak : a ≤ k
        · rw [Memory.readCell_of_lt hm (by omega), Memory.readCell_of_lt hm' (by omega)]
        · have hne : k ≠ a := by omega
          simpa only [Memory.readCell_cons_ne _ _ hne] using heq a ha
      rw [ih hm hm' htail]

/-- What filling from an image leaves at every address: the image's byte below `n`, and what was there from `n` on. -/
theorem Memory.readCell_fill (f : Byte → Byte) {n : Nat} (hn : n ≤ 256) {m : Memory} (h : m.wf = true) (a : Nat) :
    (Memory.fill f n m).readCell a = if a < n then f (BitVec.ofNat 8 a) else m.readCell a := by
  induction n generalizing m with
  | zero => simp [Memory.fill]
  | succ n ih =>
    rw [Memory.fill, ih (by omega) (Memory.writeCell_wf h _ (by omega))]
    rcases lt_trichotomy a n with hlt | rfl | hgt
    · rw [if_pos hlt, if_pos (by omega)]
    · rw [if_neg (lt_irrefl a), if_pos (Nat.lt_succ_self a), Memory.readCell_writeCell_same h]
    · rw [if_neg (by omega), if_neg (by omega), Memory.readCell_writeCell_ne m _ (by omega)]

/-- The memory of an image reads as the image. -/
theorem Memory.readCell_ofImage (f : Byte → Byte) (a : Byte) : (Memory.ofImage f).readCell a.toNat = f a := by
  rw [Memory.ofImage, Memory.readCell_fill f le_rfl (m := []) rfl, if_pos a.isLt, BitVec.ofNat_toNat,
    BitVec.setWidth_eq]

/-! ## What an execution and a step leave -/

/-- Everything the execution of an instruction can leave (R70): a result in `acc` with its flags, a stored byte, a new
`pc`, or the latch, each with its report. -/
theorem exec_cases {i : Instr} {s t : State} (h : exec i s = .next t) :
    (∃ v, i.opcode.writesFlags = true ∧ t = (s.setAcc v).report .normal) ∨
    (∃ a, i = .sta a ∧ t = (s.memWrite a s.acc).report (.write a s.acc.toInt)) ∨
    (∃ p, i.opcode.writesFlags = false ∧ t = ({ s with pc := p } : State).report .normal) ∨
    (i = .hlt ∧ t = s.latchHlt.report .halted) := by
  cases i with
  | lda a | add a | or a | and a | not => exact .inl ⟨_, rfl, (Host.Outcome.next.inj h).symm⟩
  | sta a => exact .inr (.inl ⟨a, rfl, (Host.Outcome.next.inj h).symm⟩)
  | nop => exact .inr (.inr (.inl ⟨s.pc, rfl, (Host.Outcome.next.inj h).symm⟩))
  | jmp a => exact .inr (.inr (.inl ⟨a, rfl, (Host.Outcome.next.inj h).symm⟩))
  | jn a => exact .inr (.inr (.inl ⟨_, rfl, (Host.Outcome.next.inj ((exec_jn_eq a s).symm.trans h)).symm⟩))
  | jz a => exact .inr (.inr (.inl ⟨_, rfl, (Host.Outcome.next.inj ((exec_jz_eq a s).symm.trans h)).symm⟩))
  | hlt => exact .inr (.inr (.inr ⟨rfl, (Host.Outcome.next.inj h).symm⟩))

/-- No execution writes `H` (R15). -/
theorem exec_halted {i : Instr} {s t : State} (h : exec i s = .next t) : t.halted = s.halted := by
  rcases exec_cases h with ⟨v, -, rfl⟩ | ⟨a, -, rfl⟩ | ⟨p, -, rfl⟩ | ⟨-, rfl⟩ <;> simp

/-- `step_cases`, seen from the state that a step leaves. -/
theorem step_next_cases {s t : State} (h : step s = .next t) :
    (s.Blocked ∧ t = s.raise .endOfProgram) ∨
    (¬ s.Blocked ∧ s.nextOpcode = none ∧ t = s.afterOpcode.raise (.invalidInstruction (s.memRead s.pc))) ∨
    (∃ o, ¬ s.Blocked ∧ s.nextOpcode = some o ∧ o.needsOperand = true ∧ s.pc = 0xFF#8 ∧
      t = ({ s with pc := 0x00#8, halted := true } : State).raise .missingArgument) ∨
    (∃ o a, ¬ s.Blocked ∧ s.nextOpcode = some o ∧ exec (o.withOperand a) (s.afterFetch o) = .next t) := by
  rcases step_cases s with ⟨hb, e⟩ | ⟨hb, ho, e⟩ | ⟨o, hb, ho, hn, hpc, e⟩ | ⟨o, hb, ho, -, e⟩
  · exact .inl ⟨hb, Host.Outcome.next.inj (h.symm.trans e)⟩
  · exact .inr (.inl ⟨hb, ho, Host.Outcome.next.inj (h.symm.trans e)⟩)
  · exact .inr (.inr (.inl ⟨o, hb, ho, hn, hpc, Host.Outcome.next.inj (h.symm.trans e)⟩))
  · exact .inr (.inr (.inr ⟨o, _, hb, ho, e.symm.trans h⟩))

/-- A blocked step changes nothing but the report (R79, R80). -/
theorem step_of_blocked {s : State} (hb : s.Blocked) : step s = .next (s.raise .endOfProgram) := by
  rcases step_cases s with ⟨-, e⟩ | ⟨hb', -⟩ | ⟨o, hb', -⟩ | ⟨o, hb', -⟩
  · exact e
  all_goals exact absurd hb hb'

/-- R34: where `H` is set, `Fetch()` fails. -/
theorem State.fetch_of_halted {s : State} (hh : s.halted = true) : s.fetch = none := by
  simp [State.fetch, hh]

theorem State.halted_of_not_blocked {s : State} (hb : ¬ s.Blocked) : s.halted = false :=
  (s.not_blocked_iff.1 hb).1

@[simp] theorem State.afterOpcode_halted (s : State) : s.afterOpcode.halted = decide (s.pc = 0xFF#8) := rfl

/-! ## What every step, run and transaction keeps -/

/-- What every step keeps, `run()` keeps, wherever it is cut off (R77). -/
theorem State.runFor_keeps {P : State → Prop} (hstep : ∀ s t, P s → step s = .next t → P t) {n : Nat} {s t : State}
    {e : Option RunEnd} (hs : P s) (h : s.runFor n = .next (e, t)) : P t := by
  induction n generalizing s with
  | zero => cases h; exact hs
  | succ n ih =>
    obtain ⟨u, hu⟩ := step_answers s
    have hPu : P u := hstep s u hs hu
    rw [State.runFor_succ hu] at h
    cases hend : u.runEnd with
    | none =>
      rw [hend] at h
      exact ih hPu h
    | some e' =>
      rw [hend] at h
      cases h
      exact hPu

theorem State.step_of_transact_step {s t : State} {r : Response} (h : s.transact .step = .next (r, t)) :
    step s = .next t := by
  obtain ⟨u, hu⟩ := step_answers s
  simp only [State.transact, hu] at h
  cases h
  exact hu

theorem State.runFor_of_transact_run {s t : State} {r : Response} {n : Nat}
    (h : s.transact (.run n) = .next (r, t)) : ∃ e, s.runFor n = .next (e, t) := by
  cases hr : s.runFor n with
  | next p =>
    simp only [State.transact, hr] at h
    cases h
    exact ⟨p.1, rfl⟩
  | fault f => cases f
  | refused f => simp [State.transact, hr] at h

/-! ## The invariant (R18) -/

/-- The invariant does not speak of `pc`, `H` or the report. -/
theorem State.Inv.with_pc_halted_outcome {s : State} (hs : s.Inv) (pc : Byte) (halted : Bool)
    (outcome : Option StepOutcome) : ({ s with pc := pc, halted := halted, outcome := outcome } : State).Inv :=
  ⟨hs.memory_canonical, hs.flags_exclusive, hs.config_wf, hs.no_latch_unless_sticky⟩

theorem State.Inv.report {s : State} (hs : s.Inv) (o : StepOutcome) : (s.report o).Inv :=
  hs.with_pc_halted_outcome s.pc s.halted (some o)

/-- R74: the flags of one result are never both set. -/
theorem State.Inv.setAcc {s : State} (hs : s.Inv) (v : Byte) : (s.setAcc v).Inv where
  memory_canonical := by simpa using hs.memory_canonical
  flags_exclusive := by
    rw [State.setAcc_zero, State.setAcc_negative]
    rintro ⟨hz, hn⟩
    rw [eq_of_beq hz] at hn
    exact absurd hn (by decide)
  config_wf := by simpa using hs.config_wf
  no_latch_unless_sticky := by simpa using hs.no_latch_unless_sticky

theorem State.Inv.memWrite {s : State} (hs : s.Inv) (a v : Byte) : (s.memWrite a v).Inv where
  memory_canonical := State.memWrite_wf hs.memory_canonical a v
  flags_exclusive := hs.flags_exclusive
  config_wf := hs.config_wf
  no_latch_unless_sticky := hs.no_latch_unless_sticky

/-- R80: HLT sets the latch only where `HLT_STICKY` is true. -/
theorem State.Inv.latchHlt {s : State} (hs : s.Inv) : s.latchHlt.Inv where
  memory_canonical := by simpa using hs.memory_canonical
  flags_exclusive := by simpa using hs.flags_exclusive
  config_wf := by simpa using hs.config_wf
  no_latch_unless_sticky := by
    intro hsticky
    rw [State.latchHlt_config] at hsticky
    rw [State.latchHlt_hltLatched, hsticky, hs.no_latch_unless_sticky hsticky, Bool.or_false]

theorem State.resetWith_inv {c : Config} {image : Memory} (hc : c.WF) (hm : image.wf = true) :
    (State.resetWith c image).Inv where
  memory_canonical := hm
  flags_exclusive := hc.2
  config_wf := hc
  no_latch_unless_sticky _ := rfl

theorem defaultConfig_wf : defaultConfig.WF := ⟨OpcodeMap.classic_admissible, by decide⟩

theorem State.reset_inv : State.reset.Inv := State.resetWith_inv defaultConfig_wf State.reset_mem_wf

theorem exec_inv {i : Instr} {s t : State} (hs : s.Inv) (h : exec i s = .next t) : t.Inv := by
  rcases exec_cases h with ⟨v, -, rfl⟩ | ⟨a, -, rfl⟩ | ⟨p, -, rfl⟩ | ⟨-, rfl⟩
  · exact (hs.setAcc v).report _
  · exact (hs.memWrite a s.acc).report _
  · exact hs.with_pc_halted_outcome p s.halted _
  · exact hs.latchHlt.report _

/-- The fetches write `pc` and `H` alone, and the execution keeps the invariant. -/
theorem step_inv {s t : State} (hs : s.Inv) (h : step s = .next t) : t.Inv := by
  rcases step_next_cases h with ⟨-, rfl⟩ | ⟨-, -, rfl⟩ | ⟨o, -, -, -, -, rfl⟩ | ⟨o, a, -, -, hexec⟩
  · exact hs.with_pc_halted_outcome ..
  · exact hs.with_pc_halted_outcome ..
  · exact hs.with_pc_halted_outcome ..
  · exact exec_inv (hs.with_pc_halted_outcome ..) hexec

theorem State.transact_inv {s t : State} {x : Transaction} {r : Response} (hs : s.Inv) (hx : x.WF)
    (h : s.transact x = .next (r, t)) : t.Inv := by
  cases x with
  | reset image =>
    cases h
    exact State.resetWith_inv hs.config_wf hx
  | step => exact step_inv hs (State.step_of_transact_step h)
  | run limit =>
    obtain ⟨e, hrun⟩ := State.runFor_of_transact_run h
    exact State.runFor_keeps (fun _ _ => step_inv) hs hrun
  | memWrite a v =>
    cases h
    exact hs.memWrite a v
  | readPc | readAcc | readZero | readNegative | readHalted | memRead a =>
    cases h
    exact hs

theorem Reachable.inv {s : State} (h : Reachable s) : s.Inv := by
  induction h with
  | reset c image hc hm => exact State.resetWith_inv hc hm
  | transact s t x r _ hx h ih => exact State.transact_inv ih hx h

/-! ## The flags describe the accumulator (R13, R14, R18) -/

theorem State.setAcc_flagsDescribeAcc (s : State) (v : Byte) : (s.setAcc v).FlagsDescribeAcc := by
  simp [State.FlagsDescribeAcc]

theorem exec_keeps_flagsDescribeAcc {i : Instr} {s t : State} (hs : s.FlagsDescribeAcc) (h : exec i s = .next t) :
    t.FlagsDescribeAcc := by
  rcases exec_cases h with ⟨v, -, rfl⟩ | ⟨a, -, rfl⟩ | ⟨p, -, rfl⟩ | ⟨-, rfl⟩
  · exact s.setAcc_flagsDescribeAcc v
  · exact hs
  · exact hs
  · simpa [State.FlagsDescribeAcc] using hs

theorem exec_flagsDescribeAcc_of_writesFlags {i : Instr} {s t : State} (hi : i.opcode.writesFlags = true)
    (h : exec i s = .next t) : t.FlagsDescribeAcc := by
  rcases exec_cases h with ⟨v, -, rfl⟩ | ⟨a, rfl, -⟩ | ⟨p, hi', -⟩ | ⟨rfl, -⟩
  · exact s.setAcc_flagsDescribeAcc v
  · cases hi
  · rw [hi] at hi'; cases hi'
  · cases hi

theorem step_keeps_flagsDescribeAcc {s t : State} (hs : s.FlagsDescribeAcc) (h : step s = .next t) :
    t.FlagsDescribeAcc := by
  rcases step_next_cases h with ⟨-, rfl⟩ | ⟨-, -, rfl⟩ | ⟨o, -, -, -, -, rfl⟩ | ⟨o, a, -, -, hexec⟩
  · exact hs
  · exact hs
  · exact hs
  · exact exec_keeps_flagsDescribeAcc (s := s.afterFetch o) hs hexec

/-- The other three endings of a step report an exception. -/
theorem exec_of_step_normal {s t : State} (h : step s = .next t) (hn : t.outcome = some .normal) :
    ∃ o a, s.nextOpcode = some o ∧ exec (o.withOperand a) (s.afterFetch o) = .next t := by
  rcases step_next_cases h with ⟨-, rfl⟩ | ⟨-, -, rfl⟩ | ⟨o, -, -, -, -, rfl⟩ | ⟨o, a, -, ho, hexec⟩
  · cases hn
  · cases hn
  · cases hn
  · exact ⟨o, a, ho, hexec⟩

/-! ## `H` tracks the fetches at 255 (R15) -/

theorem Opcode.fetchesLastAddress_iff (o : Opcode) (a : Byte) :
    o.fetchesLastAddress a = true ↔ a = 0xFF#8 ∨ (a = 0xFE#8 ∧ o.needsOperand = true) := by
  simp [Opcode.fetchesLastAddress, and_comm]

theorem step_halted_iff {s t : State} (h : step s = .next t) :
    t.halted = true ↔ s.halted = true ∨ (¬ s.Blocked ∧
      (s.pc = 0xFF#8 ∨ (s.pc = 0xFE#8 ∧ ∃ o, s.nextOpcode = some o ∧ o.needsOperand = true))) := by
  rcases step_next_cases h with ⟨hb, rfl⟩ | ⟨hb, ho, rfl⟩ | ⟨o, hb, ho, -, hpc, rfl⟩ | ⟨o, a, hb, ho, hexec⟩
  · rw [State.raise_halted, or_iff_left (fun hr => hr.1 hb)]
  · simp [State.halted_of_not_blocked hb, hb, ho]
  · simp [hb, hpc]
  · rw [exec_halted hexec, State.afterFetch_halted, Bool.or_eq_true, Opcode.fetchesLastAddress_iff]
    simp [hb, ho]

/-! ## The statements -/

/-- Settles O30. -/
theorem stepKeepsTheInvariant : Obligations.StepKeepsTheInvariant :=
  fun _ _ hs h => step_inv hs h

/-- Settles O51. -/
theorem transactionKeepsTheInvariant : Obligations.TransactionKeepsTheInvariant :=
  fun _ _ _ _ hs hx h => State.transact_inv hs hx h

/-- Settles O14. -/
theorem canonicalMemoriesAreExtensional : Obligations.CanonicalMemoriesAreExtensional := by
  intro m m' h h' heq
  refine Memory.eq_of_readCell_eq h h' fun a ha => ?_
  simpa [Nat.mod_eq_of_lt ha] using heq (BitVec.ofNat 8 a)

/-- Settles O15. -/
theorem resetMemoryHoldsTheImage : Obligations.ResetMemoryHoldsTheImage := by
  intro c image
  simp only [State.memRead, State.resetWith_mem]
  exact ⟨Memory.ofImage_wf image, Memory.readCell_ofImage image⟩

/-- Settles O28. -/
theorem haltedTracksFetchesAtLastAddress : Obligations.HaltedTracksFetchesAtLastAddress :=
  ⟨fun _ _ h => step_halted_iff h,
    fun _ hh => ⟨State.fetch_of_halted hh, step_of_blocked (.inl hh)⟩,
    State.resetWith_halted,
    fun _ _ _ h => exec_halted h,
    State.setZN_halted⟩

/-- Settles O32, by induction on the transactions that reach the state. -/
theorem everyReachableStateKeepsTheInvariant : Obligations.EveryReachableStateKeepsTheInvariant :=
  fun _ hs => hs.inv

/-- Settles O33. -/
theorem flagsDescribeAccFromTheFirstFlagWrite : Obligations.FlagsDescribeAccFromTheFirstFlagWrite := by
  intro s t h
  refine ⟨fun hs => step_keeps_flagsDescribeAcc hs h, fun o ho hw hn => ?_⟩
  obtain ⟨o', a, ho', hexec⟩ := exec_of_step_normal h hn
  obtain rfl : o = o' := Option.some.inj (ho.symm.trans ho')
  exact exec_flagsDescribeAcc_of_writesFlags (by simpa using hw) hexec

/-- Settles O16. -/
theorem resetValues : Obligations.ResetValues :=
  ⟨fun _ _ => ⟨rfl, rfl, rfl, rfl, rfl, rfl, rfl⟩, rfl, rfl, rfl, rfl, fun _ => rfl⟩

/-- Settles O31. -/
theorem resetMeetsTheInvariant : Obligations.ResetMeetsTheInvariant :=
  ⟨State.reset_inv, fun _ _ hc hm => State.resetWith_inv hc hm⟩

/-- Settles O44. -/
theorem hostWritesOnlyMemory : Obligations.HostWritesOnlyMemory := by
  intro s a v
  refine ⟨rfl, rfl, rfl, rfl, rfl, rfl, s.memWrite a v, rfl, ?_, ?_, rfl, rfl, rfl, rfl, rfl, rfl, rfl⟩
  · exact fun hwf => State.memRead_memWrite_same hwf a v
  · exact fun b hb => State.memRead_memWrite_ne s v hb

end Sys2Proof.Machine

/-! The memory's family of statements (`20_memory.md`): which ending a step takes, read from the state it starts in, and
from this the wrap at 255 (R34), the locality of a step (R38, R40) and self-modifying code (R42). -/

namespace Sys2Proof.Machine

/-! ## The ending that a state's step takes

`step_cases` read the other way, one equation per ending beside `step_of_blocked`: its four cases exclude each other. -/

/-- R67: the high nibble selects no instruction. -/
theorem step_of_invalid {s : State} (hb : ¬ s.Blocked) (ho : s.nextOpcode = none) :
    step s = .next (s.afterOpcode.raise (.invalidInstruction (s.memRead s.pc))) := by
  rcases step_cases s with ⟨hb', -⟩ | ⟨-, -, e⟩ | ⟨o, -, ho', -⟩ | ⟨o, -, ho', -⟩
  · exact absurd hb' hb
  · exact e
  all_goals exact absurd (ho.symm.trans ho') nofun

/-- R69: the operand would be fetched past the end of memory. -/
theorem step_of_missingArgument {s : State} {o : Opcode} (hb : ¬ s.Blocked) (ho : s.nextOpcode = some o)
    (hn : o.needsOperand = true) (hpc : s.pc = 0xFF#8) :
    step s = .next (({ s with pc := 0x00#8, halted := true } : State).raise .missingArgument) := by
  rcases step_cases s with ⟨hb', -⟩ | ⟨-, ho', -⟩ | ⟨o', -, -, -, -, e⟩ | ⟨o', -, ho', hpc', -⟩
  · exact absurd hb' hb
  · exact absurd (ho'.symm.trans ho) nofun
  · exact e
  · obtain rfl : o = o' := Option.some.inj (ho.symm.trans ho')
    exact absurd hpc (hpc' hn)

/-- R70: the instruction executes behind its fetched bytes. -/
theorem step_of_fetched {s : State} {o : Opcode} (hb : ¬ s.Blocked) (ho : s.nextOpcode = some o)
    (hpc : o.needsOperand = true → s.pc ≠ 0xFF#8) :
    step s = exec (o.withOperand (if o.needsOperand then s.memRead (s.pc + 1#8) else 0x00#8)) (s.afterFetch o) := by
  rcases step_cases s with ⟨hb', -⟩ | ⟨-, ho', -⟩ | ⟨o', -, ho', hn, hpc', -⟩ | ⟨o', -, ho', -, e⟩
  · exact absurd hb' hb
  · exact absurd (ho'.symm.trans ho) nofun
  all_goals obtain rfl : o = o' := Option.some.inj (ho.symm.trans ho')
  · exact absurd hpc' (hpc hn)
  · exact e

/-! ## The fetch and its wrap (R34) -/

theorem State.fetch_of_not_halted {s : State} (hh : s.halted = false) :
    s.fetch = some (s.memRead s.pc, s.afterOpcode) := by
  rcases s.fetch_cases with ⟨hh', -⟩ | ⟨-, e⟩
  · exact absurd (hh.symm.trans hh') nofun
  · exact e

theorem State.fetch_eq_some_iff {s u : State} {b : Byte} :
    s.fetch = some (b, u) ↔ s.halted = false ∧ b = s.memRead s.pc ∧ u = s.afterOpcode := by
  cases hh : s.halted with
  | true => simp [State.fetch_of_halted hh]
  | false => simp [State.fetch_of_not_halted hh, eq_comm]

theorem State.fetch_eq_none_iff {s : State} : s.fetch = none ↔ s.halted = true := by
  cases hh : s.halted with
  | true => simp [State.fetch_of_halted hh]
  | false => simp [State.fetch_of_not_halted hh]

/-- A fetch at 255 wraps `pc` and sets `H`. -/
theorem State.afterOpcode_at_last {s : State} (hpc : s.pc = 0xFF#8) :
    s.afterOpcode = { s with pc := 0x00#8, halted := true } := by
  simp [State.afterOpcode, hpc]

/-- An instruction of one byte executes in the state that its opcode's fetch leaves. -/
theorem State.afterFetch_of_no_operand {s : State} {o : Opcode} (hh : s.halted = false) (hn : o.needsOperand = false) :
    s.afterFetch o = s.afterOpcode := by
  simp [State.afterFetch, State.afterOpcode, Opcode.length, Opcode.fetchesLastAddress, hh, hn]

/-! ## What two states that agree outside `P` share -/

section
variable {P : Byte → Prop} {s t : State}

/-- They share whatever is no matter of memory. -/
theorem State.AgreeOutside.observe (h : s.AgreeOutside P t) {α : Type} (g : State → α)
    (hg : ∀ (u : State) (m : Memory), g { u with mem := m } = g u) : g s = g t := by
  rw [← hg s [], h.1, hg]

theorem State.AgreeOutside.pc_eq (h : s.AgreeOutside P t) : s.pc = t.pc := h.observe State.pc fun _ _ => rfl

theorem State.AgreeOutside.acc_eq (h : s.AgreeOutside P t) : s.acc = t.acc := h.observe State.acc fun _ _ => rfl

theorem State.AgreeOutside.config_eq (h : s.AgreeOutside P t) : s.config = t.config :=
  h.observe State.config fun _ _ => rfl

theorem State.AgreeOutside.memRead_eq (h : s.AgreeOutside P t) {a : Byte} (ha : ¬ P a) : s.memRead a = t.memRead a :=
  h.2 a ha

/-- R79, R80: whether a step is blocked is no matter of memory. -/
theorem State.AgreeOutside.blocked_iff (h : s.AgreeOutside P t) : s.Blocked ↔ t.Blocked :=
  iff_of_eq (h.observe State.Blocked fun _ _ => rfl)

/-- The opcode is a matter of the byte at `pc` alone (R66, R67). -/
theorem State.AgreeOutside.nextOpcode_eq (h : s.AgreeOutside P t) (hpc : ¬ P s.pc) : s.nextOpcode = t.nextOpcode := by
  rw [State.nextOpcode, State.nextOpcode, h.memRead_eq hpc, h.config_eq, h.pc_eq]

end

/-! ## Updates that neither read nor write memory -/

/-- The update commutes with replacing the whole memory: it does not look at memory and leaves it as it is. -/
def State.IgnoresMemory (f : State → State) : Prop :=
  ∀ (u : State) (m : Memory), f { u with mem := m } = { f u with mem := m }

theorem State.IgnoresMemory.mem_eq {f : State → State} (hf : State.IgnoresMemory f) (u : State) :
    (f u).mem = u.mem := by
  rw [hf u u.mem]

theorem State.IgnoresMemory.comp {f g : State → State} (hf : State.IgnoresMemory f) (hg : State.IgnoresMemory g) :
    State.IgnoresMemory (fun u => f (g u)) := by
  intro u m
  change f (g { u with mem := m }) = _
  rw [hg, hf]

theorem State.report_ignoresMemory (o : StepOutcome) : State.IgnoresMemory (State.report o) := fun _ _ => rfl

theorem State.raise_ignoresMemory (e : StepException) : State.IgnoresMemory (State.raise e) := fun _ _ => rfl

theorem State.afterOpcode_ignoresMemory : State.IgnoresMemory State.afterOpcode := fun _ _ => rfl

theorem State.afterFetch_ignoresMemory (o : Opcode) : State.IgnoresMemory (State.afterFetch · o) := fun _ _ => rfl

theorem State.setAcc_ignoresMemory (v : State → Byte) (hv : ∀ u m, v { u with mem := m } = v u) :
    State.IgnoresMemory (fun u => u.setAcc (v u)) := by
  intro u m
  change State.setAcc (v { u with mem := m }) { u with mem := m } = _
  rw [hv, State.mk.injEq]
  simp

theorem State.latchHlt_ignoresMemory : State.IgnoresMemory State.latchHlt := by
  intro u m
  rw [State.latchHlt_eq, State.latchHlt_eq]

section
variable {P : Byte → Prop} {s t s' t' : State}

/-- Such an update keeps two states in agreement. -/
theorem State.AgreeOutside.map {f : State → State} (h : s.AgreeOutside P t) (hf : State.IgnoresMemory f) :
    (f s).AgreeOutside P (f t) := by
  refine ⟨?_, fun a ha => ?_⟩
  · rw [← hf, ← hf, h.1]
  · rw [State.memRead, State.memRead, hf.mem_eq, hf.mem_eq]
    exact h.memRead_eq ha

/-- One byte stored at one address in both states: they agree there now and elsewhere as before (R33). -/
theorem State.AgreeOutside.memWrite (h : s.AgreeOutside P t) (hs : s.mem.wf = true) (ht : t.mem.wf = true)
    (a v : Byte) : (s.memWrite a v).AgreeOutside P (t.memWrite a v) := by
  refine ⟨h.1, fun b hb => ?_⟩
  by_cases hba : b = a
  · rw [hba, State.memRead_memWrite_same hs, State.memRead_memWrite_same ht]
  · rw [State.memRead_memWrite_ne s v hba, State.memRead_memWrite_ne t v hba, h.memRead_eq hb]

/-! ## The execution and the step are local (R38, R40) -/

/-- The accumulator's update looks at memory through its input byte alone (R65). -/
theorem State.AgreeOutside.accumulate (h : s.AgreeOutside P t) {f : AluFunction} {b c : Byte} (hbc : b = c)
    (hs : s.accumulate f b = .next s') (ht : t.accumulate f c = .next t') : s'.AgreeOutside P t' := by
  cases hs
  cases ht
  rw [hbc]
  exact h.map ((State.report_ignoresMemory _).comp (State.setAcc_ignoresMemory (fun u => alu f u.acc c) fun _ _ => rfl))

/-- A jump does not look at memory (R92 to R94). -/
theorem State.AgreeOutside.jumpIf (h : s.AgreeOutside P t) {c d : Bool} (hcd : c = d) {a : Byte}
    (hs : s.jumpIf c a = .next s') (ht : t.jumpIf d a = .next t') : s'.AgreeOutside P t' := by
  rw [State.jumpIf_eq] at hs ht
  cases hs
  cases ht
  rw [hcd]
  exact h.map (f := fun u => { u with pc := if d then a else u.pc, outcome := some .normal }) fun _ _ => rfl

/-- An execution reads memory at its data address alone, where it has one (R38). -/
theorem exec_agreeOutside {o : Opcode} {a : Byte} (h : s.AgreeOutside P t) (hs : s.mem.wf = true)
    (ht : t.mem.wf = true) (hdata : o = .lda ∨ o = .add ∨ o = .or ∨ o = .and → s.memRead a = t.memRead a)
    (es : exec (o.withOperand a) s = .next s') (et : exec (o.withOperand a) t = .next t') : s'.AgreeOutside P t' := by
  cases o with
  | nop =>
    cases es
    cases et
    exact h.map (State.report_ignoresMemory _)
  | sta =>
    cases es
    cases et
    rw [h.acc_eq]
    exact (h.memWrite hs ht a t.acc).map (State.report_ignoresMemory _)
  | lda | add | or | and => exact h.accumulate (hdata (by simp)) es et
  | not => exact h.accumulate rfl es et
  | jmp => exact h.jumpIf rfl es et
  | jn => exact h.jumpIf (h.observe State.negative fun _ _ => rfl) es et
  | jz => exact h.jumpIf (h.observe State.zero fun _ _ => rfl) es et
  | hlt =>
    cases es
    cases et
    exact h.map ((State.report_ignoresMemory _).comp State.latchHlt_ignoresMemory)

/-- The second state's step takes the ending of the first: the two agree on what chooses it, the flags that block, the
opcode byte and `pc`; and where the instruction executes, they agree on its operand and on its data byte. -/
theorem step_agreeOutside (h : s.AgreeOutside P t) (hreads : ∀ a, s.Reads a → ¬ P a) (hs : s.mem.wf = true)
    (ht : t.mem.wf = true) (es : step s = .next s') (et : step t = .next t') : s'.AgreeOutside P t' := by
  have hopc : ¬ P s.pc := hreads s.pc (.inl rfl)
  have hbt : ¬ s.Blocked → ¬ t.Blocked := fun hb => hb ∘ h.blocked_iff.2
  have hnext : s.nextOpcode = t.nextOpcode := h.nextOpcode_eq hopc
  rcases step_cases s with ⟨hb, e⟩ | ⟨hb, ho, e⟩ | ⟨o, hb, ho, hn, hpc, e⟩ | ⟨o, hb, ho, hpc, e⟩
  · rw [e] at es
    rw [step_of_blocked (h.blocked_iff.1 hb)] at et
    cases es
    cases et
    exact h.map (State.raise_ignoresMemory _)
  · rw [e] at es
    rw [step_of_invalid (hbt hb) (hnext ▸ ho), ← h.pc_eq, ← h.memRead_eq hopc] at et
    cases es
    cases et
    exact h.map ((State.raise_ignoresMemory _).comp State.afterOpcode_ignoresMemory)
  · rw [e] at es
    rw [step_of_missingArgument (hbt hb) (hnext ▸ ho) hn (h.pc_eq ▸ hpc)] at et
    cases es
    cases et
    exact h.map (f := fun u => ({ u with pc := 0x00#8, halted := true } : State).raise .missingArgument) fun _ _ => rfl
  · have hbyte : (if o.needsOperand then t.memRead (s.pc + 1#8) else 0x00#8) =
        if o.needsOperand then s.memRead (s.pc + 1#8) else 0x00#8 :=
      if_ctx_congr Iff.rfl (fun hn => (h.memRead_eq (hreads _ (.inr ⟨o, ho, hn, .inl rfl⟩))).symm) fun _ => rfl
    rw [e] at es
    rw [step_of_fetched (hbt hb) (hnext ▸ ho) (h.pc_eq ▸ hpc), ← h.pc_eq, hbyte] at et
    refine exec_agreeOutside (h.map (State.afterFetch_ignoresMemory o)) hs ht (fun hload => ?_) es et
    have hn : o.needsOperand = true := by rcases hload with rfl | rfl | rfl | rfl <;> rfl
    rw [if_pos hn]
    exact h.memRead_eq (hreads _ (.inr ⟨o, ho, hn, .inr ⟨hload, rfl⟩⟩))

end

/-! ## The statements -/

/-- Settles O36. -/
theorem stepDependsOnlyOnWhatItReads : Obligations.StepDependsOnlyOnWhatItReads :=
  fun _ _ _ _ _ h hreads hs ht es et => step_agreeOutside h hreads hs ht es et

/-- Settles O13. -/
theorem fetchAdvancesAndDetectsTheWrap : Obligations.FetchAdvancesAndDetectsTheWrap := by
  refine ⟨fun s hh => ⟨State.fetch_of_halted hh, step_of_blocked (.inl hh)⟩, fun s hh => ?_, ?_, ?_⟩
  · exact ⟨s.afterOpcode, State.fetch_of_not_halted hh, BitVec.toNat_add s.pc 1#8, by simp,
      rfl, rfl, rfl, rfl, rfl, rfl, rfl⟩
  · intro s s' b o hl hf ho hn hf'
    obtain ⟨hh, rfl, rfl⟩ := State.fetch_eq_some_iff.1 hf
    have hpc : s.pc = 0xFF#8 := by simpa using State.fetch_eq_none_iff.1 hf'
    rw [step_of_missingArgument (s.not_blocked_iff.2 ⟨hh, hl⟩) ho hn hpc, State.afterOpcode_at_last hpc]
  · intro s o hb hpc ho hn
    have hnext : s.nextOpcode = some o := by rw [State.nextOpcode, hpc, ho]
    rw [step_of_fetched hb hnext (by simp [hn]), State.afterFetch_of_no_operand (State.halted_of_not_blocked hb) hn,
      State.afterOpcode_at_last hpc, hn]
    rfl

/-- Settles O37. -/
theorem storeIsSeenByTheNextFetch : Obligations.StoreIsSeenByTheNextFetch := by
  intro s t hwf h hb
  have ht : (s.memWrite s.pc s.acc).report (.write s.pc s.acc.toInt) = t := Host.Outcome.next.inj h
  have hconfig : t.config = s.config := ht ▸ rfl
  have hread : t.memRead t.pc = s.acc := ht ▸ State.memRead_memWrite_same hwf s.pc s.acc
  refine ⟨⟨t.afterOpcode, ?_⟩, fun hinvalid => ⟨_, step_of_invalid hb ?_, ?_⟩⟩
  · rw [State.fetch_of_not_halted (State.halted_of_not_blocked hb), hread]
  · rw [State.nextOpcode, hread, hconfig, hinvalid]
  · rw [State.raise_outcome, hread]

end Sys2Proof.Machine

/-! The encoding's family of statements (`30_encoding.md`): the opcode map read in both directions, the decoder as the
inverse of the encoder, and how many of the sixteen `op` values select an instruction. -/

namespace Sys2Proof

/-! ## The opcode map and the opcode byte -/

/-- Under an admissible map `lookup` and `code` are inverse to each other (R55). -/
theorem OpcodeMap.lookup_eq_some_iff {m : OpcodeMap} (h : m.Admissible) {op : Nibble} {o : Opcode} :
    m.lookup op = some o ↔ m.code o = op :=
  ⟨OpcodeMap.code_of_lookup, fun hc => hc ▸ OpcodeMap.lookup_code h o⟩

theorem OpcodeMap.mem_codes_iff {m : OpcodeMap} {op : Nibble} : op ∈ m.codes ↔ ∃ o, m.code o = op := by
  have hcodes : m.codes = Opcode.all.map m.code := rfl
  rw [hcodes, List.mem_map]
  exact ⟨fun ⟨o, _, ho⟩ => ⟨o, ho⟩, fun ⟨o, ho⟩ => ⟨o, by cases o <;> decide, ho⟩⟩

theorem OpcodeMap.lookup_isSome_iff {m : OpcodeMap} {op : Nibble} : (m.lookup op).isSome ↔ op ∈ m.codes := by
  rw [Option.isSome_iff_ne_none, Ne, m.lookup_eq_none_iff, OpcodeMap.mem_codes_iff]
  push Not
  rfl

theorem decodeOpcode_eq_ok_iff {m : OpcodeMap} {b : Byte} {o : Opcode} :
    decodeOpcode m b = .ok o ↔ m.lookup (highNibble b) = some o := by
  rcases decodeOpcode_cases m b with ⟨o', hl, hd⟩ | ⟨hl, hd⟩ <;> simp [hl, hd]

/-! ## Decoding against encoding

The decoder takes exactly the operand bytes of the instruction it answers. Both directions of the round trip follow. -/

/-- R52, R53: behind an opcode byte that selects the instruction's mnemonic, its operand bytes give it back. -/
theorem decodeWith_operandBytes {m : OpcodeMap} {b : Byte} {i : Instr} (h : decodeOpcode m b = .ok i.opcode)
    (rest : List Byte) : decodeWith m (b :: (i.operandBytes ++ rest)) = .ok (i, rest) := by
  rw [decodeWith, h]
  cases i <;> rfl

/-- What a decoded instruction says of the bytes: the mnemonic is the first byte's, and the operand bytes were consumed. -/
theorem decodeWith_cons_eq_ok_iff {m : OpcodeMap} {b : Byte} {bytes rest : List Byte} {i : Instr} :
    decodeWith m (b :: bytes) = .ok (i, rest) ↔
      decodeOpcode m b = .ok i.opcode ∧ bytes = i.operandBytes ++ rest := by
  refine ⟨fun h => ?_, fun ⟨ho, hbytes⟩ => hbytes ▸ decodeWith_operandBytes ho rest⟩
  rcases decodeOpcode_cases m b with ⟨o, -, hd⟩ | ⟨-, hd⟩
  · cases hn : o.needsOperand with
    | false =>
      obtain ⟨rfl, rfl⟩ : o.withOperand 0x00#8 = i ∧ bytes = rest := by simpa [decodeWith, hd, hn] using h
      simp [hd, hn, Opcode.operandBytes_withOperand]
    | true =>
      cases bytes with
      | nil => simp [decodeWith, hd, hn] at h
      | cons a bytes =>
        obtain ⟨rfl, rfl⟩ : o.withOperand a = i ∧ bytes = rest := by simpa [decodeWith, hd, hn] using h
        simp [hd, hn, Opcode.operandBytes_withOperand]
  · simp [decodeWith, hd] at h

theorem decodeOpcode_opcodeByte {m : OpcodeMap} (h : m.Admissible) (o : Opcode) (x : Nibble) :
    decodeOpcode m (opcodeByte (m.code o) x) = .ok o := by
  rw [decodeOpcode_eq_ok_iff, highNibble_opcodeByte, OpcodeMap.lookup_code h]

/-- A selected mnemonic's `op` value and the low nibble that stood there make up the opcode byte again (R51, R52). -/
theorem opcodeByte_of_decodeOpcode {m : OpcodeMap} {b : Byte} {o : Opcode} (h : decodeOpcode m b = .ok o) :
    opcodeByte (m.code o) (lowNibble b) = b := by
  rw [OpcodeMap.code_of_lookup (decodeOpcode_eq_ok_iff.1 h), opcodeByte_nibbles]

/-! ## How many `op` values select an instruction (R54) -/

theorem OpcodeMap.card_lookup_isSome {m : OpcodeMap} (h : m.Admissible) :
    (Finset.univ.filter fun op : Fin 16 => (m.lookup (BitVec.ofFin op)).isSome).card = 11 := by
  have hinj : Function.Injective (BitVec.toFin : Nibble → Fin 16) := fun _ _ => BitVec.eq_of_toFin_eq
  have hselect : (Finset.univ.filter fun op : Fin 16 => (m.lookup (BitVec.ofFin op)).isSome) =
      (m.codes.map BitVec.toFin).toFinset := by
    ext op
    simp only [Finset.mem_filter, Finset.mem_univ, true_and, OpcodeMap.lookup_isSome_iff, List.mem_toFinset]
    exact (List.mem_map_of_injective hinj (a := BitVec.ofFin op)).symm
  rw [hselect, List.toFinset_card_of_nodup (h.map hinj)]
  rfl

theorem OpcodeMap.card_lookup_eq_none {m : OpcodeMap} (h : m.Admissible) :
    (Finset.univ.filter fun op : Fin 16 => m.lookup (BitVec.ofFin op) = none).card = 5 := by
  have hsum := Finset.card_filter_add_card_filter_not (s := (Finset.univ : Finset (Fin 16)))
    fun op => ((m.lookup (BitVec.ofFin op)).isSome : Prop)
  rw [OpcodeMap.card_lookup_isSome h, Finset.card_univ, Fintype.card_fin] at hsum
  simp only [Bool.not_eq_true, Option.isSome_eq_false_iff, Option.isNone_iff_eq_none] at hsum
  omega

/-! ## The statements -/

/-- Settles O18. -/
theorem decodeInvertsEncode : Obligations.DecodeInvertsEncode :=
  fun _ hm i x rest => decodeWith_operandBytes (decodeOpcode_opcodeByte hm i.opcode x) rest

/-- Settles O19. -/
theorem encodeInvertsDecode : Obligations.EncodeInvertsDecode := by
  intro m b bytes rest i h
  obtain ⟨hopcode, rfl⟩ := decodeWith_cons_eq_ok_iff.1 h
  rw [encodeWith, opcodeByte_of_decodeOpcode hopcode, List.cons_append]

/-- Settles O20. -/
theorem decoderSelectsByHighNibble : Obligations.DecoderSelectsByHighNibble := by
  refine ⟨fun m b b' hb o => ?_, fun m b hb => ?_, fun m hm o => ⟨m.code o, fun b => ?_⟩, fun o => ?_,
    fun m hm => ⟨OpcodeMap.card_lookup_isSome hm, OpcodeMap.card_lookup_eq_none hm⟩⟩
  · rw [decodeOpcode_eq_ok_iff, decodeOpcode_eq_ok_iff, hb]
  · rcases decodeOpcode_cases m b with ⟨o, -, hd⟩ | ⟨-, hd⟩
    · exact absurd hd (hb o)
    · exact hd
  · rw [decodeOpcode_eq_ok_iff, OpcodeMap.lookup_eq_some_iff hm, eq_comm]
  · cases o <;> decide

/-- Settles O17: each row's word is an encoding of its instruction under the default map, which the round trip decodes. -/
theorem defaultMapReadsTheTable : Obligations.DefaultMapReadsTheTable := by
  have hrow (i : Instr) (x : Nibble) : decode (encodeWith OpcodeMap.classic x i ++ []) = .ok (i, []) :=
    decodeInvertsEncode OpcodeMap.classic OpcodeMap.classic_admissible i x []
  exact ⟨hrow .nop 0xB#4, hrow (.sta 0x05#8) 0x0#4, hrow (.lda 0x80#8) 0xF#4, hrow (.add 0x81#8) 0x1#4,
    hrow (.or 0x40#8) 0x8#4, hrow (.and 0x41#8) 0xA#4, hrow .not 0x6#4, hrow (.jmp 0xFF#8) 0xE#4,
    hrow (.jn 0x06#8) 0x9#4, hrow (.jz 0x0A#8) 0x5#4, hrow .hlt 0x5#4, by decide, by decide, by decide⟩

end Sys2Proof

/-! The step's family of statements (`40_engine_step.md`): which report an execution makes, what a step does with the bytes
at `pc`, what HLT leaves behind it, and `run()` as the steps up to the first end. -/

namespace Sys2Proof

/-! ## The mnemonic, the operand and the last byte of an instruction (R50, R52, R75) -/

theorem Opcode.writesFlags_iff_mem (o : Opcode) :
    o.writesFlags = true ↔ o ∈ [.lda, .add, .or, .and, .not] := by
  cases o <;> decide

/-- A byte that is the instruction's operand, where it takes one, makes it up again with its mnemonic (R52). -/
theorem Instr.withOperand_opcode {i : Instr} {a : Byte} (ha : ∀ b ∈ i.operandBytes, a = b) :
    i.opcode.withOperand (if i.opcode.needsOperand then a else 0x00#8) = i := by
  cases i with
  | nop | not | hlt => rfl
  | sta b | lda b | add b | or b | and b | jmp b | jn b | jz b =>
    obtain rfl : a = b := ha b (List.mem_singleton_self b)
    rfl

/-- R50: an instruction that takes an operand and fits does not begin at 255. -/
theorem Instr.ne_last_of_fitsAt {i : Instr} {a : Byte} (hfit : i.FitsAt a) (hn : i.opcode.needsOperand = true) :
    a ≠ 0xFF#8 := by
  rintro rfl
  rcases i.opcode.length_cases with ⟨-, hlen⟩ | ⟨hn', -⟩
  · rw [Instr.length_opcode] at hlen
    rw [Instr.FitsAt, hlen] at hfit
    exact absurd hfit (by decide)
  · exact absurd (hn.symm.trans hn') nofun

/-- R35: where an instruction fits, it fetches address 255 exactly if its last byte is there. -/
theorem Instr.fetchesLastAddress_of_fitsAt {i : Instr} {a : Byte} (hfit : i.FitsAt a) :
    i.opcode.fetchesLastAddress a = decide (a.toNat + i.length = 256) := by
  rw [Bool.eq_iff_iff, Machine.Opcode.fetchesLastAddress_iff, decide_eq_true_iff, ← Instr.length_opcode]
  rcases i.opcode.length_cases with ⟨hn, hlen⟩ | ⟨hn, hlen⟩
  · have hne := Instr.ne_last_of_fitsAt hfit hn
    rw [hlen]
    simp only [hn, hne, and_true, false_or]
    constructor <;> intro h <;> bv_omega
  · rw [hlen]
    simp only [hn, Bool.false_eq_true, and_false, or_false]
    constructor <;> intro h <;> bv_omega

end Sys2Proof

namespace Sys2Proof.Machine

/-! ## `SetZN` (R74) -/

theorem State.setZN_eq (s : State) (v : Byte) : s.setZN v = { s with zero := v == 0x00#8, negative := v.msb } := by
  rw [State.mk.injEq]
  simp

theorem State.setZN_zero_iff (s : State) (v : Byte) : (s.setZN v).zero = true ↔ v.toInt = 0 := by
  rw [State.setZN_zero, beq_iff_eq, ← BitVec.toInt_inj, BitVec.toInt_zero]

theorem State.setZN_negative_iff (s : State) (v : Byte) : (s.setZN v).negative = true ↔ v.toInt < 0 := by
  rw [State.setZN_negative, BitVec.msb_eq_toInt, decide_eq_true_iff]

/-! ## What an execution reports (R71) -/

/-- The report of an instruction that executes with `acc` in the accumulator. -/
def completionReport (acc : Byte) : Instr → StepOutcome
  | .sta a => .write a acc.toInt
  | .hlt => .halted
  | .nop | .lda _ | .add _ | .or _ | .and _ | .not | .jmp _ | .jn _ | .jz _ => .normal

theorem exec_outcome {i : Instr} {s t : State} (h : exec i s = .next t) :
    t.outcome = some (completionReport s.acc i) := by
  cases i with
  | jn a => rw [exec_jn_eq] at h; cases h; rfl
  | jz a => rw [exec_jz_eq] at h; cases h; rfl
  | nop | sta a | lda a | add a | or a | and a | not | jmp a | hlt => cases h; rfl

theorem completionReport_eq_halted_iff {acc : Byte} {i : Instr} : completionReport acc i = .halted ↔ i = .hlt := by
  cases i <;> simp [completionReport]

theorem completionReport_eq_write_iff {acc a : Byte} {v : Int} {i : Instr} :
    completionReport acc i = .write a v ↔ i = .sta a ∧ v = acc.toInt := by
  cases i <;> simp [completionReport, eq_comm]

theorem completionReport_eq_normal_iff {acc : Byte} {i : Instr} :
    completionReport acc i = .normal ↔ i.opcode ∈ [.nop, .lda, .add, .or, .and, .not, .jmp, .jn, .jz] := by
  cases i <;> simp [completionReport, Instr.opcode]

/-- R71: a step always reports. -/
theorem step_reports (s : State) : ∃ t o, step s = .next t ∧ t.outcome = some o := by
  obtain ⟨t, h⟩ := step_answers s
  rcases step_next_cases h with ⟨-, rfl⟩ | ⟨-, -, rfl⟩ | ⟨o, -, -, -, -, rfl⟩ | ⟨o, a, -, -, hexec⟩
  · exact ⟨_, _, h, rfl⟩
  · exact ⟨_, _, h, rfl⟩
  · exact ⟨_, _, h, rfl⟩
  · exact ⟨t, _, h, exec_outcome hexec⟩

/-- R19: what a step does never depends on the report of the step before. The report chooses no ending, and each ending
overwrites it. -/
theorem step_outcome_irrelevant (s : State) (r : Option StepOutcome) : step { s with outcome := r } = step s := by
  rcases step_cases s with ⟨hb, e⟩ | ⟨hb, ho, e⟩ | ⟨o, hb, ho, hn, hpc, e⟩ | ⟨o, hb, ho, hpc, e⟩
  · exact (step_of_blocked (s := { s with outcome := r }) hb).trans e.symm
  · exact (step_of_invalid (s := { s with outcome := r }) hb ho).trans e.symm
  · exact (step_of_missingArgument (s := { s with outcome := r }) hb ho hn hpc).trans e.symm
  · rw [e, step_of_fetched (s := { s with outcome := r }) hb ho hpc]
    exact exec_outcome_irrelevant _ (s.afterFetch o) r

/-! ## The bytes at `pc` (R65, R69) -/

theorem State.afterFetch_of_fitsAt {s : State} {i : Instr} (hh : s.halted = false) (hfit : i.FitsAt s.pc) :
    s.afterFetch i.opcode = { s with
      pc := s.pc + BitVec.ofNat 8 i.length
      halted := decide (s.pc.toNat + i.length = 256) } := by
  rw [State.afterFetch, Instr.fetchesLastAddress_of_fitsAt hfit, hh, Bool.false_or, Instr.length_opcode]

/-- The step runs the instruction whose mnemonic the byte at `pc` selects and whose operand, where it has one, follows. -/
theorem step_of_bytes {s : State} {i : Instr} (hb : ¬ s.Blocked) (ho : s.nextOpcode = some i.opcode)
    (ha : ∀ b ∈ i.operandBytes, s.memRead (s.pc + 1#8) = b) (hfit : i.FitsAt s.pc) :
    step s = exec i { s with
      pc := s.pc + BitVec.ofNat 8 i.length
      halted := decide (s.pc.toNat + i.length = 256) } := by
  rw [step_of_fetched hb ho (Instr.ne_last_of_fitsAt hfit), Instr.withOperand_opcode ha,
    State.afterFetch_of_fitsAt (State.halted_of_not_blocked hb) hfit]

/-! ## HLT and the blocked states (R79, R80) -/

/-- What a step that executes HLT leaves (R95). -/
theorem step_of_hlt {s : State} (hb : ¬ s.Blocked) (ho : s.nextOpcode = some .hlt) :
    step s = .next ((s.afterFetch .hlt).latchHlt.report .halted) :=
  step_of_fetched hb ho nofun

/-- Once a step is blocked, so is every later one (R79, R80). -/
theorem State.after_of_blocked {s : State} (hb : s.Blocked) (n : Nat) :
    s.after (n + 1) = some (s.raise .endOfProgram) := by
  induction n generalizing s with
  | zero => rw [State.after_succ (step_of_blocked hb)]; rfl
  | succ n ih =>
    rw [State.after_succ (step_of_blocked hb)]
    exact ih (s := s.raise .endOfProgram) hb

theorem State.blocked_iff_of_not_sticky {s : State} (h : s.config.hltSticky = false) :
    s.Blocked ↔ s.halted = true := by
  simp [State.Blocked, h]

/-! ## The steps of a run (R77) -/

theorem State.after_answers (s : State) (n : Nat) : ∃ t, s.after n = some t := by
  induction n generalizing s with
  | zero => exact ⟨s, rfl⟩
  | succ n ih =>
    obtain ⟨t, h⟩ := step_answers s
    rw [State.after_succ h]
    exact ih t

/-- None of the first `n` steps reports an end. -/
def State.GoesOnFor (s : State) (n : Nat) : Prop :=
  ∀ k, k < n → ∃ u, s.after (k + 1) = some u ∧ u.runEnd = none

theorem State.goesOnFor_zero (s : State) : s.GoesOnFor 0 := fun _ hk => absurd hk (Nat.not_lt_zero _)

theorem State.goesOnFor_succ {s t : State} (h : step s = .next t) (n : Nat) :
    s.GoesOnFor (n + 1) ↔ t.runEnd = none ∧ t.GoesOnFor n := by
  have hfirst : (∃ u, t.after 0 = some u ∧ u.runEnd = none) ↔ t.runEnd = none := by simp [State.after]
  simp only [State.GoesOnFor, Nat.forall_lt_succ_left, State.after_succ h, hfirst]

/-- `run()` has not returned within `n` steps exactly if none of them reports an end. -/
theorem State.runFor_eq_none_iff {n : Nat} {s t : State} :
    s.runFor n = .next (none, t) ↔ s.after n = some t ∧ s.GoesOnFor n := by
  induction n generalizing s with
  | zero => simp [State.runFor, State.after, State.goesOnFor_zero]
  | succ n ih =>
    obtain ⟨u, hu⟩ := step_answers s
    rw [State.runFor_succ hu, State.goesOnFor_succ hu, State.after_succ hu]
    cases hend : u.runEnd with
    | none => simp [ih]
    | some e => simp

/-- `run()` has returned within `n` steps exactly if one of them reports an end, and then as the first that does. -/
theorem State.runFor_eq_some_iff {n : Nat} {s t : State} {e : RunEnd} :
    s.runFor n = .next (some e, t) ↔
      ∃ k, k < n ∧ s.after (k + 1) = some t ∧ t.runEnd = some e ∧ s.GoesOnFor k := by
  induction n generalizing s with
  | zero => simp [State.runFor]
  | succ n ih =>
    obtain ⟨u, hu⟩ := step_answers s
    rw [State.runFor_succ hu, Nat.exists_lt_succ_left]
    simp only [State.after_succ hu, State.goesOnFor_succ hu, State.goesOnFor_zero, and_true]
    cases hend : u.runEnd with
    | none =>
      have hne : ¬ (u.after 0 = some t ∧ t.runEnd = some e) := by
        rintro ⟨hut, he⟩
        cases hut
        exact absurd (hend.symm.trans he) nofun
      simp [ih, hne]
    | some e' =>
      have hut : (u.after 0 = some t ∧ t.runEnd = some e) ↔ e' = e ∧ u = t := by
        constructor
        · rintro ⟨hut, he⟩
          cases hut
          exact ⟨Option.some.inj (hend.symm.trans he), rfl⟩
        · rintro ⟨rfl, rfl⟩
          exact ⟨rfl, hend⟩
      simp [hut]

theorem State.runReturns_iff {s t : State} {e : RunEnd} :
    s.RunReturns e t ↔ ∃ n, s.after (n + 1) = some t ∧ t.runEnd = some e ∧ s.GoesOnFor n := by
  simp only [State.RunReturns, State.runFor_eq_some_iff]
  exact ⟨fun ⟨_, k, _, h⟩ => ⟨k, h⟩, fun ⟨k, h⟩ => ⟨k + 1, k, Nat.lt_succ_self k, h⟩⟩

theorem State.runsForever_iff {s : State} : s.RunsForever ↔ ∀ n, s.GoesOnFor n := by
  simp only [State.RunsForever, State.runFor_eq_none_iff, exists_and_right, s.after_answers, true_and]

theorem State.runEnd_eq_halted_iff {t : State} : t.runEnd = some .halted ↔ t.outcome = some .halted := by
  rw [State.runEnd]
  rcases t.outcome with _ | (_ | _ | _ | _) <;> simp [StepOutcome.runEnd]

theorem State.runEnd_eq_exception_iff {t : State} {e : StepException} :
    t.runEnd = some (.exception e) ↔ t.outcome = some (.exception e) := by
  rw [State.runEnd]
  rcases t.outcome with _ | (_ | _ | _ | _) <;> simp [StepOutcome.runEnd]

/-- Only HLT's execution ends a run (R77, R95). -/
theorem exec_runEnd_of_ne_hlt {i : Instr} {s t : State} (hi : i ≠ .hlt) (h : exec i s = .next t) : t.runEnd = none := by
  rw [State.runEnd, exec_outcome h]
  cases i with
  | hlt => exact absurd rfl hi
  | nop | sta a | lda a | add a | or a | and a | not | jmp a | jn a | jz a => rfl

/-- Only HLT's execution writes the latch (R80). -/
theorem exec_hltLatched_of_ne_hlt {i : Instr} {s t : State} (hi : i ≠ .hlt) (h : exec i s = .next t) :
    t.hltLatched = s.hltLatched := by
  rcases exec_cases h with ⟨v, -, rfl⟩ | ⟨a, -, rfl⟩ | ⟨p, -, rfl⟩ | ⟨rfl, -⟩
  · simp
  · rfl
  · rfl
  · exact absurd rfl hi

/-- A step that executes another instruction than HLT and fetches no byte at 255 neither ends a run nor blocks the next
step. -/
theorem step_goes_on {s t : State} {o : Opcode} (hb : ¬ s.Blocked) (ho : s.nextOpcode = some o) (hne : o ≠ .hlt)
    (hlast : o.fetchesLastAddress s.pc = false) (h : step s = .next t) : ¬ t.Blocked ∧ t.runEnd = none := by
  have hpc : s.pc ≠ 0xFF#8 := fun hpc =>
    absurd (hlast.symm.trans ((Opcode.fetchesLastAddress_iff o s.pc).2 (.inl hpc))) nofun
  have hi (a : Byte) : o.withOperand a ≠ .hlt :=
    fun hi => hne ((o.opcode_withOperand a).symm.trans (congrArg Instr.opcode hi))
  obtain ⟨hh, hl⟩ := s.not_blocked_iff.1 hb
  have hconfig : t.config = s.config := step_config h
  rw [step_of_fetched hb ho fun _ => hpc] at h
  refine ⟨t.not_blocked_iff.2 ⟨?_, ?_⟩, exec_runEnd_of_ne_hlt (hi _) h⟩
  · rw [exec_halted h, State.afterFetch_halted, hh, hlast, Bool.or_false]
  · rw [State.hltBlocked, exec_hltLatched_of_ne_hlt (hi _) h, hconfig]
    exact hl

/-- `run()` goes on for as long as no step executes HLT, fetches address 255 or meets an invalid opcode. -/
theorem State.goesOnFor_of_no_end {s : State} (hb : ¬ s.Blocked)
    (hsteps : ∀ n u, s.after n = some u →
      ∃ o, u.nextOpcode = some o ∧ o ≠ .hlt ∧ o.fetchesLastAddress u.pc = false) (n : Nat) : s.GoesOnFor n := by
  induction n generalizing s with
  | zero => exact s.goesOnFor_zero
  | succ n ih =>
    obtain ⟨t, h⟩ := step_answers s
    obtain ⟨o, ho, hne, hlast⟩ := hsteps 0 s rfl
    obtain ⟨hbt, hend⟩ := step_goes_on hb ho hne hlast h
    exact (State.goesOnFor_succ h n).2
      ⟨hend, ih hbt fun k u hu => hsteps (k + 1) u ((State.after_succ h k).trans hu)⟩

/-- In a blocked state `run()` returns `EndOfProgram` at its first step. -/
theorem State.runReturns_of_blocked {s t : State} {e : RunEnd} (hb : s.Blocked) :
    s.RunReturns e t ↔ e = .exception .endOfProgram ∧ t = s.raise .endOfProgram := by
  have hend : (s.raise .endOfProgram).runEnd = some (.exception .endOfProgram) := rfl
  rw [State.runReturns_iff]
  constructor
  · rintro ⟨n, ht, he, -⟩
    rw [State.after_of_blocked hb] at ht
    cases ht
    exact ⟨Option.some.inj (he.symm.trans hend), rfl⟩
  · rintro ⟨rfl, rfl⟩
    exact ⟨0, State.after_of_blocked hb 0, hend, s.goesOnFor_zero⟩

/-! ## The statements -/

/-- Settles O22. -/
theorem stepRunsTheEncodedInstruction : Obligations.StepRunsTheEncodedInstruction := by
  intro s i x hm hb hfit hbytes
  refine step_of_bytes hb ?_ (fun a ha => ?_) hfit
  · have hbyte : s.memRead s.pc = opcodeByte (s.config.opcodes.code i.opcode) x := by simpa using hbytes 0 _ rfl
    rw [State.nextOpcode, hbyte, highNibble_opcodeByte, OpcodeMap.lookup_code hm]
  · refine hbytes 1 a ?_
    cases i with
    | nop | not | hlt => cases ha
    | sta b | lda b | add b | or b | and b | jmp b | jn b | jz b =>
      rw [List.mem_singleton.1 ha]
      rfl

/-- Settles O24. -/
theorem everyStepReportsOneOutcome : Obligations.EveryStepReportsOneOutcome := by
  refine ⟨step_reports, fun i s t h => ?_, step_outcome_irrelevant⟩
  simp only [exec_outcome h, Option.some.injEq]
  refine ⟨completionReport_eq_halted_iff, ?_, fun a v hwrite => ?_, completionReport_eq_normal_iff⟩
  · simp [completionReport_eq_write_iff]
  · obtain ⟨-, rfl⟩ := completionReport_eq_write_iff.1 hwrite
    have hlow : -128 ≤ s.acc.toInt := BitVec.le_toInt s.acc
    have hhigh : s.acc.toInt < 128 := BitVec.toInt_lt
    omega

/-- Settles O29. -/
theorem hltIsTerminalExactlyIfSticky : Obligations.HltIsTerminalExactlyIfSticky := by
  intro s t ho hb h
  obtain rfl : (s.afterFetch .hlt).latchHlt.report .halted = t :=
    Host.Outcome.next.inj ((step_of_hlt hb ho).symm.trans h)
  have hhalted : ((s.afterFetch .hlt).latchHlt.report .halted).halted = true ↔ s.pc = 0xFF#8 := by
    simp [State.halted_of_not_blocked hb, Opcode.fetchesLastAddress_iff, Opcode.needsOperand]
  refine ⟨rfl, hhalted, fun hsticky => ?_, fun hsticky => State.after_of_blocked (.inr ?_)⟩
  · rw [State.blocked_iff_of_not_sticky (by simpa using hsticky), hhalted]
  · simp [hsticky]

/-- Settles O34. -/
theorem onlyFlagWritersChangeAccAndFlags : Obligations.OnlyFlagWritersChangeAccAndFlags := by
  intro s t h hchange
  rcases step_next_cases h with ⟨-, rfl⟩ | ⟨-, -, rfl⟩ | ⟨o, -, -, -, -, rfl⟩ | ⟨o, a, hb, ho, hexec⟩
  · simp at hchange
  · simp [State.afterOpcode] at hchange
  · simp at hchange
  · rcases exec_cases hexec with ⟨v, hw, rfl⟩ | ⟨a, -, rfl⟩ | ⟨p, -, rfl⟩ | ⟨-, rfl⟩
    · exact ⟨hb, rfl, o, ho, by simpa using hw⟩
    all_goals simp at hchange

/-- Settles O38. -/
theorem runReturnsAtTheFirstEnd : Obligations.RunReturnsAtTheFirstEnd := by
  refine ⟨fun _ _ _ => State.runReturns_iff, fun s => ?_, fun s hb hsteps => ?_,
    fun _ => ⟨State.runEnd_eq_halted_iff, fun _ => State.runEnd_eq_exception_iff⟩,
    fun _ hh _ _ => State.runReturns_of_blocked (.inl hh), step_answers⟩
  · rw [State.runsForever_iff]
    exact ⟨fun h n => h (n + 1) n (Nat.lt_succ_self n), fun h _ k _ => h k⟩
  · exact State.runsForever_iff.2 (State.goesOnFor_of_no_end hb hsteps)

/-- Settles O12. -/
theorem setZNDescribesTheResult : Obligations.SetZNDescribesTheResult := by
  refine ⟨fun s v => ?_, fun i s t hi h => ?_⟩
  · have hz := s.setZN_zero_iff v
    have hn := s.setZN_negative_iff v
    refine ⟨hz, hn, ?_, ?_, fun hpos => ?_, fun z n => ?_, ⟨_, _, s.setZN_eq v⟩⟩
    · rw [State.setZN_negative, BitVec.msb_eq_getLsbD_last]
    · rw [hz, hn]
      omega
    · rw [← Bool.not_eq_true, ← Bool.not_eq_true, hz, hn]
      omega
    · rw [State.setZN_eq, State.setZN_eq]
  · have hw := i.opcode.writesFlags_iff_mem.2 hi
    rcases exec_cases h with ⟨v, -, rfl⟩ | ⟨a, rfl, -⟩ | ⟨p, hw', -⟩ | ⟨rfl, -⟩
    · rw [State.report_acc, State.setAcc_acc]
      rfl
    · cases hw
    · exact absurd (hw.symm.trans hw') nofun
    · cases hw

/-- Settles O21. -/
theorem stepRunsTheDecodedInstruction : Obligations.StepRunsTheDecodedInstruction := by
  intro s i rest hb hdecode hfit
  obtain ⟨hopcode, hoperand⟩ := decodeWith_cons_eq_ok_iff.1 hdecode
  refine step_of_bytes hb (decodeOpcode_eq_ok_iff.1 hopcode) (fun a ha => ?_) hfit
  have hmem : a ∈ [s.memRead (s.pc + 1#8)] := hoperand ▸ List.mem_append_left rest ha
  exact (List.mem_singleton.1 hmem).symm

/-- Settles O26. -/
theorem invalidOpcodeEndsTheStep : Obligations.InvalidOpcodeEndsTheStep := by
  refine ⟨fun _ hb ho => step_of_invalid hb ho, fun m op x x' o h => ?_⟩
  rw [decodeOpcode_eq_ok_iff, highNibble_opcodeByte] at h ⊢
  exact h

end Sys2Proof.Machine

/-! NOP's family of statements (`41_nop.md`): its execution is the report of `Normal` and nothing else, so its frame is
that of `State.report`. -/

namespace Sys2Proof.Machine

/-- R85: executing NOP is reporting `Normal`. -/
theorem exec_nop_eq_report (s : State) : exec .nop s = .next (s.report .normal) := exec_nop_eq s

/-- Settles O1. -/
theorem nopChangesNothing : Obligations.NopChangesNothing := by
  intro s
  refine ⟨s.report .normal, exec_nop_eq_report s, s.report_outcome _, ?frame⟩
  case frame => simp

end Sys2Proof.Machine

/-! STA's and LDA's family of statements (`42_load_store.md`): STA is one `MemWrite` and its report, LDA is one byte into
`acc` with its flags and the report of `Normal`, so their frames are those of `State.memWrite` and `State.setAcc`. -/

namespace Sys2Proof.Machine

/-- R53: direct addressing, the operand is the address. -/
@[simp] theorem effectiveAddress_eq (a : Byte) : effectiveAddress a = a := rfl

/-- R86: executing STA is `MemWrite` of `acc` and the report of that write. -/
theorem exec_sta_eq_report (a : Byte) (s : State) :
    exec (.sta a) s = .next ((s.memWrite a s.acc).report (.write a s.acc.toInt)) := exec_sta_eq a s

/-- R87: executing LDA puts the byte read into `acc`, with its flags, and reports `Normal`. -/
theorem exec_lda_eq_report (a : Byte) (s : State) :
    exec (.lda a) s = .next ((s.setAcc (s.memRead a)).report .normal) := rfl

/-- R74: after a result goes to `acc`, `Z` holds exactly if the result is the zero byte. -/
theorem State.setAcc_zero_iff (s : State) (v : Byte) : (s.setAcc v).zero = true ↔ v = 0x00#8 := by
  rw [State.setAcc_zero, beq_iff_eq]

/-- R74: after a result goes to `acc`, `N` holds exactly if the result is negative as a signed number. -/
theorem State.setAcc_negative_iff (s : State) (v : Byte) : (s.setAcc v).negative = true ↔ v.toInt < 0 :=
  State.setZN_negative_iff { s with acc := v } v

/-- Settles O2. -/
theorem staStoresAccAndReportsTheWrite : Obligations.StaStoresAccAndReportsTheWrite := by
  intro s addr
  refine ⟨_, exec_sta_eq_report addr s, fun hwf => ?stored, ?others, effectiveAddress_eq addr, State.report_outcome _ _,
    ?frame⟩
  case stored => exact State.memRead_memWrite_same hwf addr s.acc
  case others =>
    rintro a rfl b hb
    exact State.memRead_memWrite_ne s s.acc hb
  case frame => simp

/-- Settles O3. -/
theorem ldaLoadsTheByteAndSetsFlags : Obligations.LdaLoadsTheByteAndSetsFlags := by
  intro s addr
  refine ⟨_, exec_lda_eq_report addr s, ?loaded, s.setAcc_zero_iff _, s.setAcc_negative_iff _, State.report_outcome _ _,
    ?frame⟩
  case loaded => rw [State.report_acc, State.setAcc_acc]
  case frame => simp

end Sys2Proof.Machine

/-! ADD's, OR's, AND's and NOT's family of statements (`43_arithmetic_logic.md`): each is the ALU's result into `acc` with
its flags and the report of `Normal`, so what is left to say of each is what its result is. -/

namespace Sys2Proof.Machine

/-! ## The four executions -/

/-- R88: executing ADD puts the wrapped sum into `acc`, with its flags, and reports `Normal`. -/
theorem exec_add_eq_report (a : Byte) (s : State) :
    exec (.add a) s = .next ((s.setAcc (s.acc + s.memRead a)).report .normal) := rfl

/-- R89: executing OR puts the bitwise or into `acc`, with its flags, and reports `Normal`. -/
theorem exec_or_eq_report (a : Byte) (s : State) :
    exec (.or a) s = .next ((s.setAcc (s.acc ||| s.memRead a)).report .normal) := rfl

/-- R90: executing AND puts the bitwise and into `acc`, with its flags, and reports `Normal`. -/
theorem exec_and_eq_report (a : Byte) (s : State) :
    exec (.and a) s = .next ((s.setAcc (s.acc &&& s.memRead a)).report .normal) := rfl

/-- R91: executing NOT puts the complement into `acc`, with its flags, and reports `Normal`. -/
theorem exec_not_eq_report (s : State) :
    exec .not s = .next ((s.setAcc (~~~s.acc)).report .normal) := rfl

/-! ## What they share -/

/-- What `acc` holds after a result and the report. -/
theorem State.setAcc_report_acc (s : State) (v : Byte) (o : StepOutcome) :
    ((s.setAcc v).report o).acc = v := by
  rw [State.report_acc, State.setAcc_acc]

/-- R74: after a result goes to `acc`, `Z` holds exactly if the result is 0 as a signed number. -/
theorem State.setAcc_zero_iff_toInt (s : State) (v : Byte) : (s.setAcc v).zero = true ↔ v.toInt = 0 :=
  State.setZN_zero_iff { s with acc := v } v

/-- R65, R76: a result in `acc` and the report that follows leave `pc`, `H`, the memory, the latch and the parameters. -/
theorem State.setAcc_report_frame (s : State) (v : Byte) (o : StepOutcome) :
    ((s.setAcc v).report o).pc = s.pc ∧ ((s.setAcc v).report o).halted = s.halted ∧
      (∀ b, ((s.setAcc v).report o).memRead b = s.memRead b) ∧
      ((s.setAcc v).report o).hltLatched = s.hltLatched ∧ ((s.setAcc v).report o).config = s.config := by
  simp

/-! ## The complement as arithmetic -/

/-- R91: as a signed number, the complement is minus the byte minus 1, -128 included. -/
theorem Byte.toInt_not (a : Byte) : (~~~a).toInt = -a.toInt - 1 := by
  rw [BitVec.toInt_eq_toNat_cond, BitVec.toInt_eq_toNat_cond, BitVec.toNat_not]
  split <;> split <;> omega

/-- R91 b: the complement is 0 for 0xFF alone. -/
theorem Byte.not_eq_zero_iff (a : Byte) : ~~~a = 0x00#8 ↔ a = 0xFF#8 := by
  rw [← BitVec.not_inj, BitVec.not_not]
  rfl

/-! ## The statements -/

/-- Settles O4. -/
theorem addWrapsAndSetsFlags : Obligations.AddWrapsAndSetsFlags := by
  intro s addr
  refine ⟨_, exec_add_eq_report addr s, ?unsigned, ?signed, ?zero, ?negative, State.report_outcome _ _,
    s.setAcc_report_frame _ _⟩
  all_goals rw [State.setAcc_report_acc]
  case unsigned => exact BitVec.toNat_add _ _
  case signed => exact BitVec.toInt_add _ _
  case zero => exact s.setAcc_zero_iff_toInt _
  case negative => exact s.setAcc_negative_iff _

/-- Settles O5. -/
theorem orCombinesBitsAndSetsFlags : Obligations.OrCombinesBitsAndSetsFlags := by
  intro s addr
  refine ⟨_, exec_or_eq_report addr s, fun k _ => ?bits, ?zero, ?negative, State.report_outcome _ _,
    s.setAcc_report_frame _ _⟩
  case bits => rw [State.setAcc_report_acc, BitVec.getLsbD_or]
  case zero => exact (s.setAcc_zero_iff _).trans BitVec.or_eq_zero_iff
  case negative =>
    rw [State.setAcc_report_acc]
    exact s.setAcc_negative_iff _

/-- Settles O6. -/
theorem andCombinesBitsAndSetsFlags : Obligations.AndCombinesBitsAndSetsFlags := by
  intro s addr
  refine ⟨_, exec_and_eq_report addr s, fun k _ => ?bits, ?zero, ?negative, State.report_outcome _ _,
    s.setAcc_report_frame _ _⟩
  all_goals rw [State.setAcc_report_acc]
  case bits => exact BitVec.getLsbD_and
  case zero => exact s.setAcc_zero_iff _
  case negative => exact s.setAcc_negative_iff _

/-- Settles O7. -/
theorem notComplementsAndSetsFlags : Obligations.NotComplementsAndSetsFlags := by
  intro s
  refine ⟨_, exec_not_eq_report s, ?unsigned, ?signed, ?zero, ?sign, State.report_outcome _ _,
    s.setAcc_report_frame _ _⟩
  case unsigned => rw [State.setAcc_report_acc, BitVec.toNat_not]
  case signed => rw [State.setAcc_report_acc, Byte.toInt_not]
  case zero => exact (s.setAcc_zero_iff _).trans (Byte.not_eq_zero_iff _)
  case sign => rw [State.report_negative, State.setAcc_negative, BitVec.msb_not, decide_eq_true (by decide), Bool.true_and]

end Sys2Proof.Machine

/-! JMP's, JN's and JZ's family of statements (`44_jumps.md`): each is one conditional jump, which differs from the others
in its condition alone, so what a jump does with `pc` and what it leaves is said once, for every condition. -/

namespace Sys2Proof.Machine

/-! ## The three executions -/

/-- R92: executing JMP is a jump that is always taken. -/
theorem exec_jmp_eq_jumpIf (a : Byte) (s : State) : exec (.jmp a) s = s.jumpIf true a := rfl

/-- R93: executing JN is a jump taken on the flag `N`. -/
theorem exec_jn_eq_jumpIf (a : Byte) (s : State) : exec (.jn a) s = s.jumpIf s.negative a := rfl

/-- R94: executing JZ is a jump taken on the flag `Z`; `acc` is not looked at. -/
theorem exec_jz_eq_jumpIf (a : Byte) (s : State) : exec (.jz a) s = s.jumpIf s.zero a := rfl

/-! ## What they share -/

/-- A new `pc` and the report that follows leave `acc`, the flags, `H`, the memory, the latch and the parameters. -/
theorem State.setPc_report_frame (s : State) (p : Byte) (o : StepOutcome) :
    let t := ({ s with pc := p } : State).report o
    t.acc = s.acc ∧ t.zero = s.zero ∧ t.negative = s.negative ∧ t.halted = s.halted ∧
      (∀ b, t.memRead b = s.memRead b) ∧ t.hltLatched = s.hltLatched ∧ t.config = s.config :=
  ⟨rfl, rfl, rfl, rfl, fun _ => rfl, rfl, rfl⟩

/-- R92 to R94: a jump completes, taken or not; `pc` is the target or the fall-through address, and the rest stays. -/
theorem State.jumpIf_answers (s : State) (taken : Bool) (target : Byte) :
    ∃ t, s.jumpIf taken target = .next t ∧
      (taken = true → t.pc = target) ∧ (taken = false → t.pc = s.pc) ∧ t.outcome = some .normal ∧
      t.acc = s.acc ∧ t.zero = s.zero ∧ t.negative = s.negative ∧ t.halted = s.halted ∧
      (∀ b, t.memRead b = s.memRead b) ∧ t.hltLatched = s.hltLatched ∧ t.config = s.config := by
  refine ⟨_, s.jumpIf_eq taken target, ?taken, ?fallThrough, rfl, s.setPc_report_frame _ .normal⟩
  case taken => rintro rfl; rfl
  case fallThrough => rintro rfl; rfl

/-! ## The statements -/

/-- Settles O8: a jump whose condition is `true`. -/
theorem jmpLoadsPc : Obligations.JmpLoadsPc := by
  intro s addr
  obtain ⟨t, hexec, hpc, -, hrest⟩ := s.jumpIf_answers true addr
  exact ⟨t, (exec_jmp_eq_jumpIf addr s).trans hexec, hpc rfl, hrest⟩

/-- Settles O9. -/
theorem jnLoadsPcIfNegative : Obligations.JnLoadsPcIfNegative := by
  intro s addr
  rw [exec_jn_eq_jumpIf]
  exact s.jumpIf_answers s.negative addr

/-- Settles O10. -/
theorem jzLoadsPcIfZeroFlag : Obligations.JzLoadsPcIfZeroFlag := by
  intro s addr
  rw [exec_jz_eq_jumpIf]
  exact s.jumpIf_answers s.zero addr

end Sys2Proof.Machine

/-! HLT's family of statements (`45_halt.md`): its execution is the optional latch and the report of `Halted`, so only the
latch depends on `HLT_STICKY`, and the frame is that of `State.latchHlt` and `State.report`. -/

namespace Sys2Proof.Machine

/-- R95: executing HLT is setting the optional latch and reporting `Halted`. -/
theorem exec_hlt_eq_report (s : State) : exec .hlt s = .next (s.latchHlt.report .halted) := rfl

/-- R80: without `HLT_STICKY` an HLT leaves the latch. -/
theorem State.latchHlt_hltLatched_of_not_sticky {s : State} (h : s.config.hltSticky = false) :
    s.latchHlt.hltLatched = s.hltLatched := by
  rw [State.latchHlt_hltLatched, h, Bool.false_or]

/-- R80: with `HLT_STICKY` an HLT sets the latch. -/
theorem State.latchHlt_hltLatched_of_sticky {s : State} (h : s.config.hltSticky = true) :
    s.latchHlt.hltLatched = true := by
  rw [State.latchHlt_hltLatched, h, Bool.true_or]

/-- Settles O11. -/
theorem hltReportsHalted : Obligations.HltReportsHalted := by
  intro s
  refine ⟨s.latchHlt.report .halted, exec_hlt_eq_report s, State.report_outcome _ _, ?notSticky, ?sticky, ?frame⟩
  case notSticky => exact State.latchHlt_hltLatched_of_not_sticky
  case sticky => exact State.latchHlt_hltLatched_of_sticky
  case frame => simp

end Sys2Proof.Machine

/-! The exceptions' and the control layer's family of statements (`60_exceptions.md`): which exception a step reports
and what it leaves (R100, R101), the report of every store (R119), and the breakpoints and loops of the debug interface
(R114 to R120). -/

namespace Sys2Proof.Machine

/-! ## The three exceptions (R100) -/

/-- No instruction's own operation raises an exception (R70, R100). -/
theorem exec_outcome_ne_exception {i : Instr} {s t : State} (h : exec i s = .next t) (e : StepException) :
    t.outcome ≠ some (.exception e) := by
  rw [exec_outcome h]
  cases i <;> nofun

/-- Every exception that a step can report, with its condition. -/
theorem step_exception_cases {s t : State} {e : StepException} (h : step s = .next t)
    (he : t.outcome = some (.exception e)) :
    (e = .endOfProgram ∧ s.Blocked) ∨
    (e = .invalidInstruction (s.memRead s.pc) ∧ ¬ s.Blocked ∧ s.nextOpcode = none) ∨
    (e = .missingArgument ∧ ¬ s.Blocked ∧ s.pc = 0xFF#8 ∧ ∃ o, s.nextOpcode = some o ∧ o.needsOperand = true) := by
  rcases step_next_cases h with ⟨hb, rfl⟩ | ⟨hb, ho, rfl⟩ | ⟨o, hb, ho, hn, hpc, rfl⟩ | ⟨o, a, -, -, hexec⟩
  · cases he
    exact .inl ⟨rfl, hb⟩
  · cases he
    exact .inr (.inl ⟨rfl, hb, ho⟩)
  · cases he
    exact .inr (.inr ⟨rfl, hb, hpc, o, ho, hn⟩)
  · exact absurd he (exec_outcome_ne_exception hexec e)

/-- R101. -/
theorem step_endOfProgram_iff {s t : State} (h : step s = .next t) :
    t.outcome = some (.exception .endOfProgram) ↔ s.Blocked := by
  constructor
  · intro he
    rcases step_exception_cases h he with ⟨-, hb⟩ | ⟨⟨⟩, -⟩ | ⟨⟨⟩, -⟩
    exact hb
  · intro hb
    cases h.symm.trans (step_of_blocked hb)
    rfl

/-- R102. -/
theorem step_invalidInstruction_iff {s t : State} {b : Byte} (h : step s = .next t) :
    t.outcome = some (.exception (.invalidInstruction b)) ↔
      ¬ s.Blocked ∧ s.nextOpcode = none ∧ b = s.memRead s.pc := by
  constructor
  · intro he
    rcases step_exception_cases h he with ⟨⟨⟩, -⟩ | ⟨hbyte, hb, ho⟩ | ⟨⟨⟩, -⟩
    exact ⟨hb, ho, StepException.invalidInstruction.inj hbyte⟩
  · rintro ⟨hb, ho, rfl⟩
    cases h.symm.trans (step_of_invalid hb ho)
    rfl

/-- R103. -/
theorem step_missingArgument_iff {s t : State} (h : step s = .next t) :
    t.outcome = some (.exception .missingArgument) ↔
      ¬ s.Blocked ∧ s.pc = 0xFF#8 ∧ ∃ o, s.nextOpcode = some o ∧ o.needsOperand = true := by
  constructor
  · intro he
    rcases step_exception_cases h he with ⟨⟨⟩, -⟩ | ⟨⟨⟩, -⟩ | ⟨-, hcond⟩
    exact hcond
  · rintro ⟨hb, hpc, o, ho, hn⟩
    cases h.symm.trans (step_of_missingArgument hb ho hn hpc)
    rfl

/-! ## The report of a store (R119) -/

/-- Only STA changes a byte that a program can read, and only the byte its operand names. -/
theorem exec_of_memRead_ne {i : Instr} {s t : State} {b : Byte} (h : exec i s = .next t)
    (hb : t.memRead b ≠ s.memRead b) : t = (s.memWrite b s.acc).report (.write b s.acc.toInt) := by
  rcases exec_cases h with ⟨v, -, rfl⟩ | ⟨a, -, rfl⟩ | ⟨p, -, rfl⟩ | ⟨-, rfl⟩
  · simp at hb
  · obtain rfl : b = a := by
      by_contra hne
      exact hb (State.memRead_memWrite_ne s s.acc hne)
    rfl
  · exact absurd rfl hb
  · simp at hb

/-! ## The loop of Step N and Continue (R115, R116, R120) -/

theorem State.loopFor_succ_of_stop {bp : Breakpoints} {s t : State} {r : StopReason} (h : step s = .next t)
    (hr : t.stopReason bp = some r) (n : Nat) : s.loopFor bp (n + 1) = .next (some r, t) := by
  rw [State.loopFor_succ bp h, hr]

theorem State.loopFor_succ_of_no_stop {bp : Breakpoints} {s t : State} (h : step s = .next t)
    (hr : t.stopReason bp = none) (n : Nat) : s.loopFor bp (n + 1) = t.loopFor bp n := by
  rw [State.loopFor_succ bp h, hr]

/-- A loop that has not stopped in its first `m` steps goes on from where they left it; one that has stays stopped under
every larger bound. -/
theorem State.loopFor_add {bp : Breakpoints} {m : Nat} {s t : State} {r : Option StopReason} (n : Nat) :
    s.loopFor bp m = .next (r, t) → s.loopFor bp (m + n) = match r with
      | none => t.loopFor bp n
      | some r => .next (some r, t) := by
  intro h
  induction m generalizing s with
  | zero =>
    cases h
    rw [Nat.zero_add]
  | succ m ih =>
    obtain ⟨u, hu⟩ := step_answers s
    rw [Nat.succ_add]
    cases hr : u.stopReason bp with
    | none =>
      rw [State.loopFor_succ_of_no_stop hu hr] at h ⊢
      exact ih h
    | some r' =>
      rw [State.loopFor_succ_of_stop hu hr] at h ⊢
      cases h
      rfl

/-- With no breakpoint, only the end of a run stops the loop. -/
theorem State.stopReason_nil (t : State) : t.stopReason [] = t.runEnd.map RunEnd.stopReason := by
  unfold State.stopReason
  cases t.runEnd <;> rfl

theorem RunEnd.stopReason_injective : Function.Injective RunEnd.stopReason
  | .halted, .halted, _ => rfl
  | .exception _, .exception _, h => congrArg RunEnd.exception (StopReason.exception.inj h)

/-- R120: `run()` is the loop with the empty breakpoint set, wherever both are cut off. -/
theorem State.runFor_eq_iff_loopFor_nil {n : Nat} {s t : State} {e : Option RunEnd} :
    s.runFor n = .next (e, t) ↔ s.loopFor [] n = .next (e.map RunEnd.stopReason, t) := by
  have hinj := Option.map_injective RunEnd.stopReason_injective
  induction n generalizing s with
  | zero => simp [State.runFor, State.loopFor, eq_comm]
  | succ n ih =>
    obtain ⟨u, hu⟩ := step_answers s
    rw [State.runFor_succ hu, State.loopFor_succ [] hu, State.stopReason_nil]
    cases u.runEnd with
    | none => exact ih
    | some e' =>
      have hend : some e' = e ↔ some e'.stopReason = e.map RunEnd.stopReason := (hinj.eq_iff (a := some e')).symm
      simp [hend]

/-! ## When the loop stops (R115, R118) -/

/-- The loop stops on a breakpoint only where the outcome is no end, and reports the post-step `pc`. -/
theorem State.stopReason_eq_breakpoint_iff {bp : Breakpoints} {t : State} {a : Byte} :
    t.stopReason bp = some (.breakpoint a) ↔ t.pc = a ∧ a ∈ bp ∧ t.runEnd = none := by
  rw [State.stopReason_eq_some_iff]
  constructor
  · rintro (⟨e, -, he⟩ | ⟨hend, hmem, ⟨⟩⟩)
    · cases e <;> cases he
    · exact ⟨rfl, hmem, hend⟩
  · rintro ⟨rfl, hmem, hend⟩
    exact .inr ⟨hend, hmem, rfl⟩

/-- None of the first `n` steps meets a stop test: `State.GoesOnFor` with breakpoints. -/
def State.PassesFor (bp : Breakpoints) (s : State) (n : Nat) : Prop :=
  ∀ k, k < n → ∃ u, s.after (k + 1) = some u ∧ u.stopReason bp = none

theorem State.passesFor_zero (bp : Breakpoints) (s : State) : s.PassesFor bp 0 :=
  fun _ hk => absurd hk (Nat.not_lt_zero _)

theorem State.passesFor_succ {bp : Breakpoints} {s t : State} (h : step s = .next t) (n : Nat) :
    s.PassesFor bp (n + 1) ↔ t.stopReason bp = none ∧ t.PassesFor bp n := by
  have hfirst : (∃ u, t.after 0 = some u ∧ u.stopReason bp = none) ↔ t.stopReason bp = none := by simp [State.after]
  simp only [State.PassesFor, Nat.forall_lt_succ_left, State.after_succ h, hfirst]

/-- The loop goes on to the first step that meets a stop test. -/
theorem State.loopFor_of_passesFor {bp : Breakpoints} {n : Nat} {s t : State} {r : StopReason}
    (hpass : s.PassesFor bp n) (ht : s.after (n + 1) = some t) (hr : t.stopReason bp = some r) :
    s.loopFor bp (n + 1) = .next (some r, t) := by
  induction n generalizing s with
  | zero =>
    obtain ⟨u, hu⟩ := step_answers s
    rw [State.after_succ hu] at ht
    cases ht
    exact State.loopFor_succ_of_stop hu hr 0
  | succ n ih =>
    obtain ⟨u, hu⟩ := step_answers s
    rw [State.after_succ hu] at ht
    obtain ⟨hnone, hpass⟩ := (State.passesFor_succ hu n).1 hpass
    rw [State.loopFor_succ_of_no_stop hu hnone]
    exact ih hpass ht

/-- Where the loop stops, it does so at the first step that meets a stop test. -/
theorem State.passesFor_of_loopFor {bp : Breakpoints} {n : Nat} {s t : State} {r : StopReason}
    (h : s.loopFor bp n = .next (some r, t)) :
    ∃ k, s.after (k + 1) = some t ∧ t.stopReason bp = some r ∧ s.PassesFor bp k := by
  induction n generalizing s with
  | zero => cases h
  | succ n ih =>
    obtain ⟨u, hu⟩ := step_answers s
    cases hr : u.stopReason bp with
    | none =>
      rw [State.loopFor_succ_of_no_stop hu hr] at h
      obtain ⟨k, ht, hstop, hpass⟩ := ih h
      exact ⟨k + 1, (State.after_succ hu _).trans ht, hstop, (State.passesFor_succ hu k).2 ⟨hr, hpass⟩⟩
    | some r' =>
      rw [State.loopFor_succ_of_stop hu hr] at h
      cases h
      exact ⟨0, State.after_succ hu 0, hr, s.passesFor_zero bp⟩

/-- R116: Continue stops after the first step that meets a stop test, with the breakpoint set as it was. -/
theorem Session.continueStops_iff {c c' : Session} {r : StopReason} :
    c.ContinueStops r c' ↔ c'.breakpoints = c.breakpoints ∧ c'.engine.stopReason c.breakpoints = some r ∧
      ∃ n, c.engine.after (n + 1) = some c'.engine ∧ c.engine.PassesFor c.breakpoints n := by
  constructor
  · rintro ⟨n, t, h, rfl⟩
    obtain ⟨k, ht, hr, hpass⟩ := State.passesFor_of_loopFor h
    exact ⟨rfl, hr, k, ht, hpass⟩
  · obtain ⟨engine, breakpoints⟩ := c'
    rintro ⟨rfl, hr, n, ht, hpass⟩
    exact ⟨n + 1, engine, State.loopFor_of_passesFor hpass ht hr, rfl⟩

/-! ## What Step N reports (R115) -/

theorem Session.stepN_eq_stopped_iff {n : Nat} {c c' : Session} {r : StopReason} :
    c.stepN n = .next (.stopped r, c') ↔
      ∃ t, c.engine.loopFor c.breakpoints n = .next (some r, t) ∧ c' = { c with engine := t } := by
  unfold Session.stepN
  rcases c.engine.loopFor c.breakpoints n with ⟨_ | r', t⟩ | f | f <;> simp [and_assoc, eq_comm]

theorem Session.stepN_eq_stepsTaken_iff {n k : Nat} {c c' : Session} :
    c.stepN n = .next (.stepsTaken k, c') ↔
      k = n ∧ ∃ t, c.engine.loopFor c.breakpoints n = .next (none, t) ∧ c' = { c with engine := t } := by
  unfold Session.stepN
  rcases c.engine.loopFor c.breakpoints n with ⟨_ | r', t⟩ | f | f <;> simp [eq_comm]

/-- A first step that meets a stop test is all that Step N takes, whatever its bound. -/
theorem Session.stepN_succ_of_stop {c : Session} {t : State} {r : StopReason} (h : step c.engine = .next t)
    (hr : t.stopReason c.breakpoints = some r) (n : Nat) :
    c.stepN (n + 1) = .next (.stopped r, { c with engine := t }) :=
  Session.stepN_eq_stopped_iff.2 ⟨t, State.loopFor_succ_of_stop h hr n, rfl⟩

theorem Session.stepN_one_of_no_stop {c : Session} {t : State} (h : step c.engine = .next t)
    (hr : t.stopReason c.breakpoints = none) : c.stepN 1 = .next (.stepsTaken 1, { c with engine := t }) :=
  Session.stepN_eq_stepsTaken_iff.2 ⟨rfl, t, State.loopFor_succ_of_no_stop h hr 0, rfl⟩

/-- R114: the single step is the engine's. -/
theorem Session.singleStep_of_step {c : Session} {t : State} (h : step c.engine = .next t) :
    c.singleStep = .next { c with engine := t } := by
  rw [Session.singleStep, h]

/-! ## The breakpoint set (R117) -/

theorem Breakpoints.mem_insert {bp : Breakpoints} {a b : Byte} : b ∈ bp.insert a ↔ b = a ∨ b ∈ bp := by
  induction bp with
  | nil => simp [Breakpoints.insert]
  | cons c bp ih =>
    unfold Breakpoints.insert
    split_ifs with hlt heq
    · exact List.mem_cons
    · simp [heq]
    · rw [List.mem_cons, ih, List.mem_cons, or_left_comm]

theorem Breakpoints.mem_remove {bp : Breakpoints} {a b : Byte} : b ∈ bp.remove a ↔ b ≠ a ∧ b ∈ bp := by
  simp [Breakpoints.remove, and_comm]

theorem Breakpoints.insert_wf {bp : Breakpoints} (h : bp.WF) (a : Byte) : (bp.insert a).WF := by
  induction bp with
  | nil => exact List.pairwise_singleton _ a
  | cons c bp ih =>
    obtain ⟨hhead, htail⟩ := List.pairwise_cons.1 h
    unfold Breakpoints.insert
    split_ifs with hlt heq
    · refine List.pairwise_cons.2 ⟨List.forall_mem_cons.2 ⟨hlt, fun b hb => hlt.trans (hhead b hb)⟩, h⟩
    · exact h
    · refine List.pairwise_cons.2 ⟨fun b hb => ?_, ih htail⟩
      rcases Breakpoints.mem_insert.1 hb with rfl | hb
      · exact lt_of_le_of_ne (Nat.le_of_not_lt hlt) fun hcb => heq (BitVec.eq_of_toNat_eq hcb.symm)
      · exact hhead b hb

theorem Breakpoints.remove_wf {bp : Breakpoints} (h : bp.WF) (a : Byte) : (bp.remove a).WF :=
  h.filter _

theorem Session.setBreakpoint_of_mem {c : Session} {a : Byte} (h : a ∈ c.breakpoints) :
    c.setBreakpoint a = (.noOp, c) := if_pos h

theorem Session.setBreakpoint_of_not_mem {c : Session} {a : Byte} (h : a ∉ c.breakpoints) :
    c.setBreakpoint a = (.changed, { c with breakpoints := c.breakpoints.insert a }) := if_neg h

theorem Session.clearBreakpoint_of_mem {c : Session} {a : Byte} (h : a ∈ c.breakpoints) :
    c.clearBreakpoint a = (.changed, { c with breakpoints := c.breakpoints.remove a }) := if_pos h

theorem Session.clearBreakpoint_of_not_mem {c : Session} {a : Byte} (h : a ∉ c.breakpoints) :
    c.clearBreakpoint a = (.noOp, c) := if_neg h

theorem Session.mem_setBreakpoint {c : Session} {a b : Byte} :
    b ∈ (c.setBreakpoint a).2.breakpoints ↔ b = a ∨ b ∈ c.breakpoints := by
  by_cases h : a ∈ c.breakpoints
  · rw [Session.setBreakpoint_of_mem h, or_iff_right_of_imp fun hb => hb ▸ h]
  · rw [Session.setBreakpoint_of_not_mem h, Breakpoints.mem_insert]

theorem Session.mem_clearBreakpoint {c : Session} {a b : Byte} :
    b ∈ (c.clearBreakpoint a).2.breakpoints ↔ b ≠ a ∧ b ∈ c.breakpoints := by
  by_cases h : a ∈ c.breakpoints
  · rw [Session.clearBreakpoint_of_mem h, Breakpoints.mem_remove]
  · rw [Session.clearBreakpoint_of_not_mem h, and_iff_right_of_imp fun hb => ne_of_mem_of_not_mem hb h]

/-- What setting a breakpoint leaves alone and keeps. -/
theorem Session.setBreakpoint_frame {c : Session} (h : c.breakpoints.WF) (a : Byte) :
    (c.setBreakpoint a).2.engine = c.engine ∧ (c.setBreakpoint a).2.breakpoints.WF := by
  by_cases ha : a ∈ c.breakpoints
  · rw [Session.setBreakpoint_of_mem ha]
    exact ⟨rfl, h⟩
  · rw [Session.setBreakpoint_of_not_mem ha]
    exact ⟨rfl, Breakpoints.insert_wf h a⟩

/-- What clearing a breakpoint leaves alone and keeps. -/
theorem Session.clearBreakpoint_frame {c : Session} (h : c.breakpoints.WF) (a : Byte) :
    (c.clearBreakpoint a).2.engine = c.engine ∧ (c.clearBreakpoint a).2.breakpoints.WF := by
  by_cases ha : a ∈ c.breakpoints
  · rw [Session.clearBreakpoint_of_mem ha]
    exact ⟨rfl, Breakpoints.remove_wf h a⟩
  · rw [Session.clearBreakpoint_of_not_mem ha]
    exact ⟨rfl, h⟩

/-! ## The statements -/

/-- Settles O25. -/
theorem endOfProgramRepeatsUntilReset : Obligations.EndOfProgramRepeatsUntilReset :=
  ⟨fun _ hh n => State.after_of_blocked (.inl hh) n, State.resetWith_halted⟩

/-- Settles O27. -/
theorem threeExceptionsUnderTheirConditions : Obligations.ThreeExceptionsUnderTheirConditions := by
  refine ⟨fun i s t e h => exec_outcome_ne_exception h e, fun s t h => ?_⟩
  refine ⟨⟨step_endOfProgram_iff h, fun he => ?ended⟩, fun b => ⟨step_invalidInstruction_iff h, fun he => ?invalid⟩,
    ⟨step_missingArgument_iff h, fun he => ?missing⟩, step_answers t⟩
  case ended =>
    have hb := (step_endOfProgram_iff h).1 he
    cases h.symm.trans (step_of_blocked hb)
    rfl
  case invalid =>
    obtain ⟨hb, ho, -⟩ := (step_invalidInstruction_iff h).1 he
    cases h.symm.trans (step_of_invalid hb ho)
    rfl
  case missing =>
    obtain ⟨hb, hpc, o, ho, hn⟩ := (step_missingArgument_iff h).1 he
    cases h.symm.trans (step_of_missingArgument hb ho hn hpc)
    rfl

/-- Settles O35: the three failed endings write no memory, and of the instructions only STA does. -/
theorem everyMemoryChangeIsReported : Obligations.EveryMemoryChangeIsReported := by
  intro s t b hwf h hb
  rcases step_next_cases h with ⟨-, rfl⟩ | ⟨-, -, rfl⟩ | ⟨o, -, -, -, -, rfl⟩ | ⟨o, a, -, -, hexec⟩
  · exact absurd rfl hb
  · exact absurd rfl hb
  · exact absurd rfl hb
  · rw [← State.memRead_afterFetch s o] at hb
    rw [exec_of_memRead_ne hexec hb]
    exact ⟨rfl, State.memRead_memWrite_same (s := s.afterFetch o) hwf b s.acc⟩

/-- Settles O40. -/
theorem runStepNAndContinueAreOneLoop : Obligations.RunStepNAndContinueAreOneLoop := by
  refine ⟨fun n s t e => State.runFor_eq_iff_loopFor_nil (e := some e),
    fun n s t => State.runFor_eq_iff_loopFor_nil (e := none), fun c c' r => ?_, fun s => ?_⟩
  · simp only [Session.ContinueStops, Session.stepN_eq_stopped_iff]
  · exact forall_congr' fun n => exists_congr fun t => State.runFor_eq_iff_loopFor_nil (e := none)

/-- Settles O41. -/
theorem breakpointStopsBeforeTheInstruction : Obligations.BreakpointStopsBeforeTheInstruction := by
  intro c c' a
  rw [Session.continueStops_iff, State.stopReason_eq_breakpoint_iff]
  simp only [State.PassesFor, State.stopReason_eq_none_iff, and_assoc]

/-- Settles O42. -/
theorem stepNComposes : Obligations.StepNComposes := by
  refine ⟨fun c => rfl, fun c t h => ⟨Session.singleStep_of_step h, fun n e he => ?ends, fun n hend hmem => ?breaks,
    fun hend hmem => ?passes⟩, fun m n c c' => ⟨fun htaken => ?taken, fun r hstopped => ?stopped⟩⟩
  case ends => exact Session.stepN_succ_of_stop h (State.stopReason_eq_some_iff.2 (.inl ⟨e, he, rfl⟩)) n
  case breaks => exact Session.stepN_succ_of_stop h (State.stopReason_eq_some_iff.2 (.inr ⟨hend, hmem, rfl⟩)) n
  case passes => exact Session.stepN_one_of_no_stop h (State.stopReason_eq_none_iff.2 ⟨hend, hmem⟩)
  case taken =>
    obtain ⟨-, t, ht, rfl⟩ := Session.stepN_eq_stepsTaken_iff.1 htaken
    have hadd : c.engine.loopFor c.breakpoints (m + n) = t.loopFor c.breakpoints n := State.loopFor_add n ht
    simp only [Session.stepN_eq_stopped_iff, Session.stepN_eq_stepsTaken_iff, hadd, true_and]
    exact ⟨fun _ _ h => h, fun _ h => h⟩
  case stopped =>
    obtain ⟨t, ht, rfl⟩ := Session.stepN_eq_stopped_iff.1 hstopped
    exact Session.stepN_eq_stopped_iff.2 ⟨t, State.loopFor_add n ht, rfl⟩

/-- Settles O43. -/
theorem breakpointSetAndClear : Obligations.BreakpointSetAndClear := by
  intro c a hwf
  obtain ⟨hsetEngine, hsetWf⟩ := Session.setBreakpoint_frame hwf a
  obtain ⟨hclearEngine, hclearWf⟩ := Session.clearBreakpoint_frame hwf a
  have hset : a ∈ (c.setBreakpoint a).2.breakpoints := Session.mem_setBreakpoint.2 (.inl rfl)
  have hclear : a ∉ (c.clearBreakpoint a).2.breakpoints := fun h => (Session.mem_clearBreakpoint.1 h).1 rfl
  exact ⟨fun _ => Session.mem_setBreakpoint, fun _ => Session.mem_clearBreakpoint, Session.setBreakpoint_of_mem,
    Session.clearBreakpoint_of_not_mem, Session.setBreakpoint_of_mem hset, Session.clearBreakpoint_of_not_mem hclear,
    hsetEngine, hclearEngine, hsetWf, hclearWf⟩

end Sys2Proof.Machine

/-! The first half of the reset's and hazards' family of statements (`70_reset_and_hazards.md`): what placing a word
leaves in memory (R133), and why a run that executes no jump ends (R134). -/

namespace Sys2Proof

/-- R52: an instruction with an operand byte has a mnemonic that takes one. -/
theorem Instr.needsOperand_of_mem_operandBytes {i : Instr} {b : Byte} (h : b ∈ i.operandBytes) :
    i.opcode.needsOperand = true := by
  cases i with
  | nop | not | hlt => cases h
  | sta a | lda a | add a | or a | and a | jmp a | jn a | jz a => rfl

/-- What a decoded table word says of its two bytes: the first selects the mnemonic, the second is the operand if there
is one. -/
theorem decodeTableWord_eq_some {nbits w : Nat} {i : Instr} (h : decodeTableWord nbits w = some i) :
    decodeOpcode OpcodeMap.classic (BitVec.ofNat 8 (w % 2 ^ nbits)) = .ok i.opcode ∧
      ∀ b ∈ i.operandBytes, BitVec.ofNat 8 (w % 2 ^ nbits / 256) = b := by
  cases hd : decode (tableWordBytes nbits w) with
  | error e => simp [decodeTableWord, hd] at h
  | ok p =>
    obtain ⟨i', rest⟩ := p
    obtain rfl : i' = i := by simpa [decodeTableWord, hd] using h
    obtain ⟨hopcode, hbytes⟩ := decodeWith_cons_eq_ok_iff.1 hd
    refine ⟨hopcode, fun b hb => ?_⟩
    have hmem : b ∈ [BitVec.ofNat 8 (w % 2 ^ nbits / 256)] := hbytes ▸ List.mem_append_left rest hb
    exact (List.mem_singleton.1 hmem).symm

end Sys2Proof

namespace Sys2Proof.Machine

/-! ## Placing a word (R133) -/

/-- Placing a word is two stores, the second only where it falls before the end of memory (R60). -/
theorem State.withFetchWord_eq (s : State) (nbits w : Nat) :
    s.withFetchWord nbits w =
      (if s.pc = 0xFF#8 then s.memWrite s.pc (BitVec.ofNat 8 (w % 2 ^ nbits))
        else (s.memWrite s.pc (BitVec.ofNat 8 (w % 2 ^ nbits))).memWrite (s.pc + 1#8)
          (BitVec.ofNat 8 (w % 2 ^ nbits / 256))).readyToFetch := by
  have hfirst : s.pc.toNat < 256 := s.pc.isLt
  simp only [State.withFetchWord, tableWordBytes, State.placeBytes, if_pos hfirst]
  by_cases hpc : s.pc = 0xFF#8
  · have hpast : ¬ s.pc.toNat + 1 < 256 := by rw [hpc]; decide
    rw [if_neg hpast, if_pos hpc]
    rfl
  · have hnext : s.pc.toNat + 1 < 256 := by bv_omega
    have haddr : (s.pc + 1#8).toNat = s.pc.toNat + 1 := by bv_omega
    rw [if_pos hnext, if_neg hpc, State.memWrite, haddr]
    rfl

/-- Placing writes memory and clears what blocks a step, and leaves the rest. -/
theorem State.withFetchWord_frame (s : State) (nbits w : Nat) :
    let u := s.withFetchWord nbits w
    u.pc = s.pc ∧ u.acc = s.acc ∧ u.zero = s.zero ∧ u.negative = s.negative ∧ u.halted = false ∧
      u.hltLatched = false ∧ u.config = s.config := by
  rw [State.withFetchWord_eq]
  split_ifs <;> simp

theorem State.withFetchWord_wf {s : State} (h : s.mem.wf = true) (nbits w : Nat) :
    (s.withFetchWord nbits w).mem.wf = true :=
  State.placeBytes_wf _ _ h

/-- The first byte stands at `pc`: the second is stored elsewhere. -/
theorem State.memRead_withFetchWord_first {s : State} (h : s.mem.wf = true) (nbits w : Nat) :
    (s.withFetchWord nbits w).memRead s.pc = BitVec.ofNat 8 (w % 2 ^ nbits) := by
  have hne : s.pc ≠ s.pc + 1#8 := by bv_omega
  rw [State.withFetchWord_eq, State.memRead_readyToFetch]
  split_ifs
  · exact State.memRead_memWrite_same h _ _
  · rw [State.memRead_memWrite_ne _ _ hne, State.memRead_memWrite_same h]

theorem State.memRead_withFetchWord_second {s : State} (h : s.mem.wf = true) (nbits w : Nat) (hpc : s.pc ≠ 0xFF#8) :
    (s.withFetchWord nbits w).memRead (s.pc + 1#8) = BitVec.ofNat 8 (w % 2 ^ nbits / 256) := by
  rw [State.withFetchWord_eq, State.memRead_readyToFetch, if_neg hpc,
    State.memRead_memWrite_same (State.memWrite_wf h _ _)]

theorem State.memRead_withFetchWord_ne (s : State) (nbits w : Nat) {b : Byte} (hfirst : b ≠ s.pc)
    (hsecond : s.pc ≠ 0xFF#8 → b ≠ s.pc + 1#8) : (s.withFetchWord nbits w).memRead b = s.memRead b := by
  rw [State.withFetchWord_eq, State.memRead_readyToFetch]
  split_ifs with hpc
  · exact State.memRead_memWrite_ne s _ hfirst
  · rw [State.memRead_memWrite_ne _ _ (hsecond hpc), State.memRead_memWrite_ne s _ hfirst]

/-- Settles O23. -/
theorem placedWordRuns : Obligations.PlacedWordRuns := by
  intro s nbits w i hmap hwf hdecode hfit
  obtain ⟨hopcode, hoperand⟩ := decodeTableWord_eq_some hdecode
  obtain ⟨hpc, hacc, hzero, hnegative, hhalted, hlatch, hconfig⟩ := s.withFetchWord_frame nbits w
  have hfirst := State.memRead_withFetchWord_first hwf nbits w
  have hsecond := State.memRead_withFetchWord_second hwf nbits w
  have hready : ¬ (s.withFetchWord nbits w).Blocked := by simp [State.Blocked, hhalted, hlatch]
  have hnext : (s.withFetchWord nbits w).nextOpcode = some i.opcode := by
    rw [State.nextOpcode, hpc, hconfig, hfirst, hmap]
    exact decodeOpcode_eq_ok_iff.1 hopcode
  have hfollows : ∀ b ∈ i.operandBytes, (s.withFetchWord nbits w).memRead ((s.withFetchWord nbits w).pc + 1#8) = b := by
    intro b hb
    rw [hpc, hsecond (Instr.ne_last_of_fitsAt hfit (Instr.needsOperand_of_mem_operandBytes hb))]
    exact hoperand b hb
  refine ⟨(s.withFetchWord nbits w).afterFetch i.opcode, ?pc, hacc, hzero, hnegative, ?halted, hlatch, hconfig,
    State.withFetchWord_wf hwf nbits w, hfirst, hsecond, fun _ => State.memRead_withFetchWord_ne s nbits w, ?runs⟩
  case pc => rw [State.afterFetch_pc, hpc, Instr.length_opcode]
  case halted => rw [State.afterFetch_halted, hhalted, hpc, Bool.false_or, Instr.fetchesLastAddress_of_fitsAt hfit]
  case runs =>
    have hfit' : i.FitsAt (s.withFetchWord nbits w).pc := hpc ▸ hfit
    rw [step_of_bytes hready hnext hfollows hfit', State.afterFetch_of_fitsAt hhalted hfit']

/-! ## Runs without a jump (R134) -/

/-- Every other execution than a jump's leaves `pc` behind the instruction (R11). -/
theorem exec_pc_of_ne_jump {o : Opcode} {a : Byte} {s t : State} (ho : o ≠ .jmp ∧ o ≠ .jn ∧ o ≠ .jz)
    (h : exec (o.withOperand a) s = .next t) : t.pc = s.pc := by
  obtain ⟨hjmp, hjn, hjz⟩ := ho
  cases o with
  | jmp => exact absurd rfl hjmp
  | jn => exact absurd rfl hjn
  | jz => exact absurd rfl hjz
  | nop | sta => cases h; rfl
  | lda | add | or | and | not | hlt => cases h; simp

/-- R65, R11: a step that executes anything but a jump and reports no end moves `pc` on, or has fetched address 255. -/
theorem step_advances {s t : State} (hb : ¬ s.Blocked)
    (hjump : ∀ o, s.nextOpcode = some o → o ≠ .jmp ∧ o ≠ .jn ∧ o ≠ .jz) (h : step s = .next t)
    (hend : t.runEnd = none) : t.Blocked ∨ s.pc.toNat < t.pc.toNat := by
  rcases step_next_cases h with ⟨hb', -⟩ | ⟨-, -, rfl⟩ | ⟨o, -, -, -, -, rfl⟩ | ⟨o, a, -, ho, hexec⟩
  · exact absurd hb' hb
  · cases hend
  · cases hend
  · have hpc : t.pc = s.pc + BitVec.ofNat 8 o.length := exec_pc_of_ne_jump (hjump o ho) hexec
    cases hlast : o.fetchesLastAddress s.pc with
    | true =>
      refine .inl (.inl ?_)
      rw [exec_halted hexec, State.afterFetch_halted, hlast, Bool.or_true]
    | false =>
      right
      rw [← Bool.not_eq_true, Opcode.fetchesLastAddress_iff, not_or] at hlast
      obtain ⟨hlast, hbeforeLast⟩ := hlast
      rcases o.length_cases with ⟨hn, hlen⟩ | ⟨-, hlen⟩
      · have hne : s.pc ≠ 0xFE#8 := fun hpc' => hbeforeLast ⟨hpc', hn⟩
        rw [hpc, hlen]
        bv_omega
      · rw [hpc, hlen]
        bv_omega

/-- No state that `run()` reaches before its first end, and in which a step runs, has a jump next (R134). -/
def State.NeverJumps (s : State) : Prop :=
  ∀ n u o, s.after n = some u → s.GoesOnFor n → ¬ u.Blocked → u.nextOpcode = some o → o ≠ .jmp ∧ o ≠ .jn ∧ o ≠ .jz

theorem State.NeverJumps.nextOpcode {s : State} (hs : s.NeverJumps) (hb : ¬ s.Blocked) :
    ∀ o, s.nextOpcode = some o → o ≠ .jmp ∧ o ≠ .jn ∧ o ≠ .jz :=
  fun o => hs 0 s o rfl s.goesOnFor_zero hb

theorem State.NeverJumps.step {s t : State} (hs : s.NeverJumps) (h : step s = .next t) (hend : t.runEnd = none) :
    t.NeverJumps :=
  fun n u o hu hgo => hs (n + 1) u o ((State.after_succ h n).trans hu) ((State.goesOnFor_succ h n).2 ⟨hend, hgo⟩)

/-- `pc` rises with every step, so as many steps as there are addresses from `pc` on, and one more, reach an end. -/
theorem State.NeverJumps.runFor_ends {n : Nat} {s : State} (hs : s.NeverJumps)
    (hn : s.Blocked ∨ 256 ≤ s.pc.toNat + n) : ∃ e t, s.runFor (n + 1) = .next (some e, t) := by
  induction n generalizing s with
  | zero =>
    have hb : s.Blocked := hn.resolve_right (by have := s.pc.isLt; omega)
    exact ⟨_, _, State.runFor_succ (step_of_blocked hb) 0⟩
  | succ n ih =>
    by_cases hb : s.Blocked
    · exact ⟨_, _, State.runFor_succ (step_of_blocked hb) (n + 1)⟩
    · obtain ⟨t, h⟩ := step_answers s
      rw [State.runFor_succ h]
      cases hend : t.runEnd with
      | some e => exact ⟨e, t, rfl⟩
      | none =>
        have hpc : 256 ≤ s.pc.toNat + (n + 1) := hn.resolve_left hb
        refine ih (hs.step h hend) ((step_advances hb (hs.nextOpcode hb) h hend).imp_right fun hlt => ?_)
        omega

/-- Settles O39. -/
theorem jumpFreeRunsEndWithin257Steps : Obligations.JumpFreeRunsEndWithin257Steps :=
  fun _ hs => State.NeverJumps.runFor_ends hs (.inr (Nat.le_add_left _ _))

end Sys2Proof.Machine

/-! The second half of the reset's and hazards' family of statements (`70_reset_and_hazards.md`): the memory-image
loader, its comments (R137), tokens (R138), numbers (R139) and errors (R140 to R143). -/

namespace Sys2Proof.Machine

/-! ## Comments (R137) -/

/-- The comment stripper comes to a line break with what it made of the text before it, and begins anew behind it. -/
theorem stripComments_append_newline (b : Bool) (xs ys : List Char) :
    stripComments b (xs ++ '\n' :: ys) = stripComments b xs ++ '\n' :: stripComments false ys := by
  induction xs generalizing b with
  | nil => rw [List.nil_append, stripComments_cons, if_pos rfl, stripComments_nil, List.nil_append]
  | cons x xs ih =>
    rw [List.cons_append, stripComments_cons, stripComments_cons]
    split_ifs
    · rw [ih, List.cons_append]
    · exact ih true
    · exact ih true
    · rw [ih, List.cons_append]

/-- Text without a semicolon, outside a comment, is copied. -/
theorem stripComments_append_of_no_semicolon {xs : List Char} (h : ';' ∉ xs) (ys : List Char) :
    stripComments false (xs ++ ys) = xs ++ stripComments false ys := by
  induction xs with
  | nil => rfl
  | cons x xs ih =>
    obtain ⟨hx, hxs⟩ := not_or.1 (mt List.mem_cons.2 h)
    rw [List.cons_append, stripComments_cons, ih hxs]
    simp [Ne.symm hx]

theorem stripComments_of_no_semicolon {xs : List Char} (h : ';' ∉ xs) : stripComments false xs = xs := by
  simpa [stripComments_nil] using stripComments_append_of_no_semicolon h []

/-- A comment that no line break ends is removed whole. -/
theorem stripComments_comment {comment : List Char} (h : '\n' ∉ comment) : stripComments true comment = [] := by
  induction comment with
  | nil => exact stripComments_nil true
  | cons c cs ih =>
    obtain ⟨hc, hcs⟩ := not_or.1 (mt List.mem_cons.2 h)
    rw [stripComments_cons, if_neg (Ne.symm hc), if_pos rfl, ih hcs]

/-- A line with a comment at its end is the line. -/
theorem stripComments_line_comment {line comment : List Char} (hline : ';' ∉ line) (hcomment : '\n' ∉ comment) :
    stripComments false (line ++ ';' :: comment) = line := by
  have hstart : stripComments false (';' :: comment) = stripComments true comment := rfl
  rw [stripComments_append_of_no_semicolon hline, hstart, stripComments_comment hcomment, List.append_nil]

theorem count_newline_stripComments (b : Bool) (source : List Char) :
    (stripComments b source).count '\n' = source.count '\n' := by
  induction source generalizing b with
  | nil => rw [stripComments_nil]
  | cons c cs ih =>
    rw [stripComments_cons]
    split_ifs with hc
    all_goals simp [ih, hc]

theorem semicolon_not_mem_stripComments (b : Bool) (source : List Char) : ';' ∉ stripComments b source := by
  induction source generalizing b with
  | nil => simp [stripComments_nil]
  | cons c cs ih =>
    rw [stripComments_cons]
    split_ifs with hbreak hcomment hsemicolon
    · rw [hbreak, List.mem_cons, not_or]
      exact ⟨by decide, ih false⟩
    · exact ih true
    · exact ih true
    · rw [List.mem_cons, not_or]
      exact ⟨Ne.symm hsemicolon, ih false⟩

/-- Settles O45. -/
theorem commentStrippingKeepsLineBreaks : Obligations.CommentStrippingKeepsLineBreaks := by
  refine ⟨count_newline_stripComments false, semicolon_not_mem_stripComments false,
    fun _ => stripComments_of_no_semicolon, fun line comment rest hline hcomment => ?_⟩
  have hstrip : stripComments false (line ++ ';' :: comment ++ '\n' :: rest) =
      line ++ '\n' :: stripComments false rest := by
    rw [stripComments_append_newline, stripComments_line_comment hline hcomment]
  refine ⟨hstrip, stripComments_line_comment hline hcomment, ?_⟩
  rw [tokensOf, tokensOf, hstrip, stripComments_append_newline, stripComments_of_no_semicolon hline]

/-! ## Tokens (R138, R142) -/

/-- White space ends a token; the line number behind it counts the line breaks up to and with it. -/
theorem tokenizeFrom_append_whitespace (line : Nat) (text xs : List Char) {c : Char} (hc : c.isWhitespace = true)
    (ys : List Char) :
    tokenizeFrom line text (xs ++ c :: ys) =
      tokenizeFrom line text xs ++ tokenizeFrom (line + (xs ++ [c]).count '\n') [] ys := by
  induction xs generalizing line text with
  | nil =>
    rw [List.nil_append, tokenizeFrom_cons, if_pos hc, tokenizeFrom]
    by_cases hbreak : c = '\n' <;> simp [hbreak]
  | cons x xs ih =>
    rw [List.cons_append, tokenizeFrom_cons, tokenizeFrom_cons]
    split_ifs with hx hbreak
    · rw [ih, List.append_assoc]
      simp [hbreak, Nat.add_comm, Nat.add_left_comm]
    · rw [ih, List.append_assoc]
      simp [hbreak]
    · have hbreak : x ≠ '\n' := by rintro rfl; exact hx rfl
      rw [ih]
      simp [hbreak]

/-- Characters that are no white space are one token with what was gathered before them. -/
theorem tokenizeFrom_of_no_whitespace (line : Nat) (text : List Char) {xs : List Char}
    (h : ∀ c ∈ xs, c.isWhitespace = false) : tokenizeFrom line text xs = pendingToken line (text ++ xs) := by
  induction xs generalizing text with
  | nil => rw [List.append_nil, tokenizeFrom]
  | cons x xs ih =>
    obtain ⟨hx, hxs⟩ := List.forall_mem_cons.1 h
    rw [tokenizeFrom_cons, hx, if_neg Bool.false_ne_true, ih _ hxs, List.append_assoc, List.singleton_append]

/-- A text that is one token: neither white space nor a semicolon in it. -/
def IsWord (text : List Char) : Prop := text ≠ [] ∧ ∀ c ∈ text, c.isWhitespace = false ∧ c ≠ ';'

theorem IsWord.semicolon_not_mem {word : List Char} (h : IsWord word) : ';' ∉ word :=
  fun hmem => (h.2 _ hmem).2 rfl

theorem IsWord.newline_not_mem {word : List Char} (h : IsWord word) : '\n' ∉ word :=
  fun hmem => absurd (h.2 _ hmem).1 (by decide)

theorem tokenizeFrom_word (line : Nat) {word : List Char} (h : IsWord word) :
    tokenizeFrom line [] word = [{ text := word, line := line }] := by
  obtain ⟨hne, hword⟩ := h
  rw [tokenizeFrom_of_no_whitespace line [] fun c hc => (hword c hc).1, List.nil_append, pendingToken, if_neg hne]

/-- A word and a blank are one token on the same line. -/
theorem tokenizeFrom_word_blank (line : Nat) {word : List Char} (h : IsWord word) (rest : List Char) :
    tokenizeFrom line [] (word ++ ' ' :: rest) = { text := word, line := line } :: tokenizeFrom line [] rest := by
  have hcount : (word ++ [' ']).count '\n' = 0 := by simp [List.count_eq_zero.2 h.newline_not_mem]
  rw [tokenizeFrom_append_whitespace line [] word (by decide), tokenizeFrom_word line h, hcount, Nat.add_zero,
    List.singleton_append]

/-- R142: the token of a line that is one word, behind any source, whatever comments that source has. -/
theorem tokensOf_append_line {word : List Char} (source : List Char) (h : IsWord word) :
    tokensOf (source ++ '\n' :: word) =
      tokensOf source ++ [{ text := word, line := source.count '\n' + 2 }] := by
  have hline : 1 + (stripComments false source ++ ['\n']).count '\n' = source.count '\n' + 2 := by
    rw [List.count_append, count_newline_stripComments, List.count_singleton_self]
    omega
  rw [tokensOf, stripComments_append_newline, stripComments_of_no_semicolon h.semicolon_not_mem,
    tokenizeFrom_append_whitespace 1 [] _ (by decide), hline, tokenizeFrom_word _ h, tokensOf]

/-! ## Loading, one token at a time (R140, R141) -/

theorem Token.isOrg_iff (t : Token) : t.isOrg = true ↔ t.text ∈ [['o', 'r', 'g'], ['O', 'R', 'G']] := by
  simp [Token.isOrg]

/-- R139: a token that is no byte ends the load with its error. -/
theorem loadTokens_of_number_error {t : Token} {e : NumberError} (ho : t.isOrg = false)
    (hn : numberOf t.text = .error e) (ts : List Token) (st : LoadState) :
    loadTokens none (t :: ts) st = (st, some (e.at t)) := by
  rw [loadTokens_cons, ho, hn, if_neg Bool.false_ne_true]

/-- R140: a number below the end of memory is written at the cursor. -/
theorem loadTokens_of_write {t : Token} {v : Byte} {st : LoadState} (ho : t.isOrg = false)
    (hn : numberOf t.text = .ok v) (hc : st.cursor < 256) (ts : List Token) :
    loadTokens none (t :: ts) st =
      loadTokens none ts { cursor := st.cursor + 1, buffer := st.buffer.writeCell st.cursor v } := by
  rw [loadTokens_cons, ho, hn, if_neg Bool.false_ne_true]
  exact if_pos hc

/-- R141: a number at the end of memory overflows. -/
theorem loadTokens_of_overflow {t : Token} {v : Byte} {st : LoadState} (ho : t.isOrg = false)
    (hn : numberOf t.text = .ok v) (hc : ¬ st.cursor < 256) (ts : List Token) :
    loadTokens none (t :: ts) st = (st, some .memoryOverflow) := by
  rw [loadTokens_cons, ho, hn, if_neg Bool.false_ne_true]
  exact if_neg hc

/-- R140: an `org` with a number moves the cursor and writes nothing. -/
theorem loadTokens_of_org {o t : Token} {v : Byte} (ho : o.isOrg = true) (hn : numberOf t.text = .ok v)
    (ts : List Token) (st : LoadState) :
    loadTokens none (o :: t :: ts) st = loadTokens none ts { cursor := v.toNat, buffer := st.buffer } := by
  rw [loadTokens_cons, if_pos ho, loadTokens_org, hn]

/-- R140, D18: an `org` before a token that is no number ends the load with that token's error. -/
theorem loadTokens_of_org_error {o t : Token} {e : NumberError} (ho : o.isOrg = true)
    (hn : numberOf t.text = .error e) (ts : List Token) (st : LoadState) :
    loadTokens none (o :: t :: ts) st = (st, some (e.at t)) := by
  rw [loadTokens_cons, if_pos ho, loadTokens_org, hn]

/-- R143: where loading fails on one token, it fails on it whatever follows, and in the same state. -/
theorem loadTokens_of_fails {t : Token} {st st' : LoadState} {e : LoadError} (ho : t.isOrg = false)
    (h : loadTokens none [t] st = (st', some e)) (ts : List Token) : loadTokens none (t :: ts) st = (st, some e) := by
  cases hn : numberOf t.text with
  | error e' =>
    rw [loadTokens_of_number_error ho hn] at h ⊢
    rw [(Prod.mk.inj h).2]
  | ok v =>
    by_cases hc : st.cursor < 256
    · rw [loadTokens_of_write ho hn hc] at h
      cases h
    · rw [loadTokens_of_overflow ho hn hc] at h ⊢
      rw [(Prod.mk.inj h).2]

/-- Settles O46. -/
theorem failedLoadKeepsEarlierBytes : Obligations.FailedLoadKeepsEarlierBytes := by
  refine ⟨fun before behind t st st' st'' e h ho hfail => ?token, fun before behind o t st st' e h ho hn => ?org,
    fun c source e h => ?boot⟩
  case token => rw [loadTokens_append _ _ _ _ _ h, loadTokens_of_fails ho hfail]
  case org => rw [loadTokens_append _ _ _ _ _ h, loadTokens_of_org_error ho hn]
  case boot =>
    rcases hload : load source [] with ⟨st, err⟩
    rw [hload] at h
    obtain rfl : err = some e := h
    rw [boot, hload]

/-- Settles O48. -/
theorem badTokenReportsItsLine : Obligations.BadTokenReportsItsLine := by
  intro source tok buffer st hload hne htok hn hlower hupper
  have ho : Token.isOrg { text := tok, line := source.count '\n' + 2 } = false := by
    rw [← Bool.not_eq_true, Token.isOrg_iff]
    simp [hlower, hupper]
  rw [load, tokensOf_append_line source ⟨hne, htok⟩, loadTokens_append _ _ _ _ _ hload,
    loadTokens_of_number_error ho hn]
  rfl

/-! ## The cursor (R140, R141) -/

theorem NumberError.at_ne_memoryOverflow (e : NumberError) (t : Token) : e.at t ≠ .memoryOverflow := by
  cases e <;> nofun

/-- The cursor stays from 0 to 256, and only at 256 does a write overflow. -/
theorem loadTokens_cursor (p : Option Token) (ts : List Token) {st : LoadState} (h : st.cursor ≤ 256) :
    (loadTokens p ts st).1.cursor ≤ 256 ∧
      ((loadTokens p ts st).2 = some .memoryOverflow → (loadTokens p ts st).1.cursor = 256) := by
  induction ts generalizing p st with
  | nil => cases p <;> exact ⟨h, nofun⟩
  | cons t ts ih =>
    cases p with
    | some o =>
      rw [loadTokens_org]
      cases numberOf t.text with
      | error e => exact ⟨h, fun he => absurd (Option.some.inj he) (e.at_ne_memoryOverflow t)⟩
      | ok v => exact ih none v.isLt.le
    | none =>
      cases ho : t.isOrg with
      | true =>
        rw [loadTokens_cons, if_pos ho]
        exact ih (some t) h
      | false =>
        cases hn : numberOf t.text with
        | error e =>
          rw [loadTokens_of_number_error ho hn]
          exact ⟨h, fun he => absurd (Option.some.inj he) (e.at_ne_memoryOverflow t)⟩
        | ok v =>
          by_cases hc : st.cursor < 256
          · rw [loadTokens_of_write ho hn hc]
            exact ih none hc
          · rw [loadTokens_of_overflow ho hn hc]
            exact ⟨h, fun _ => le_antisymm h (not_lt.1 hc)⟩

/-- Settles O47. -/
theorem writingPastTheEndOverflows : Obligations.WritingPastTheEndOverflows := by
  refine ⟨fun before behind t st st' v h hc ho hn => ?overflow, fun before t st st' v h hc ho hn => ?last,
    fun source buffer => (loadTokens_cursor none _ (Nat.zero_le 256)).1,
    fun source buffer => (loadTokens_cursor none _ (Nat.zero_le 256)).2⟩
  case overflow => rw [loadTokens_append _ _ _ _ _ h, loadTokens_of_overflow ho hn (by omega)]
  case last =>
    rw [loadTokens_append _ _ _ _ _ h, loadTokens_of_write ho hn (by omega), hc]
    rfl

/-! ## Numbers (R139) -/

/-- A digit of a numeral has its value, in every base that has digits. -/
theorem digitValue_digitChar {base d : Nat} (hbase : base ≤ 16) (hd : d < base) :
    digitValue base d.digitChar = some d := by
  have hvalue : ∀ base ≤ 16, ∀ d < base, digitValue base (Nat.digitChar d) = some d := by decide
  exact hvalue base hbase d hd

theorem digitsValueFrom_append (base acc : Nat) (xs ys : List Char) :
    digitsValueFrom base acc (xs ++ ys) = (digitsValueFrom base acc xs).bind (digitsValueFrom base · ys) := by
  induction xs generalizing acc with
  | nil => rfl
  | cons x xs ih =>
    simp only [List.cons_append, digitsValueFrom]
    cases digitValue base x with
    | none => rfl
    | some d => exact ih _

theorem digitsValueFrom_digitChar {base d : Nat} (hbase : base ≤ 16) (hd : d < base) (acc : Nat) :
    digitsValueFrom base acc [d.digitChar] = some (acc * base + d) := by
  simp [digitsValueFrom, digitValue_digitChar hbase hd]

/-- A numeral's value, from its last digit and the numeral before it. -/
theorem digitsValueFrom_toDigits {base : Nat} (hlow : 1 < base) (hhigh : base ≤ 16) (n : Nat) :
    digitsValueFrom base 0 (Nat.toDigits base n) = some n := by
  induction n using Nat.strong_induction_on with
  | _ n ih =>
    by_cases hn : n < base
    · rw [Nat.toDigits_of_lt_base hn, digitsValueFrom_digitChar hhigh hn, Nat.zero_mul, Nat.zero_add]
    · have hmod : n % base < base := Nat.mod_lt n (by omega)
      rw [Nat.toDigits_of_base_le hlow (by omega), digitsValueFrom_append, ih _ (Nat.div_lt_self (by omega) hlow),
        Option.bind_some, digitsValueFrom_digitChar hhigh hmod, Nat.div_add_mod']

theorem digitsValue_of_ne_nil (base : Nat) {digits : List Char} (h : digits ≠ []) :
    digitsValue base digits = digitsValueFrom base 0 digits := by
  cases digits with
  | nil => exact absurd rfl h
  | cons c cs => rfl

theorem digitsValue_toDigits {base : Nat} (hlow : 1 < base) (hhigh : base ≤ 16) (n : Nat) :
    digitsValue base (Nat.toDigits base n) = some n := by
  rw [digitsValue_of_ne_nil base Nat.toDigits_ne_nil, digitsValueFrom_toDigits hlow hhigh]

/-- A token of decimal digits is read as unsigned decimal: it holds neither the `x` of `0x` nor a minus. -/
theorem numberOf_of_isDigit {tok : List Char} (h : ∀ c ∈ tok, c.isDigit = true) :
    numberOf tok = boundedByte 255 (BitVec.ofNat 8) (digitsValue 10 tok) := by
  unfold numberOf
  split
  · exact absurd (h 'x' (by simp)) (by decide)
  · exact absurd (h '-' (by simp)) (by decide)
  · rfl

/-- Settles O49. -/
theorem numericTokensHaveTheirValues : Obligations.NumericTokensHaveTheirValues := by
  intro n
  have hdecimal : digitsValue 10 (Nat.toDigits 10 n) = some n := digitsValue_toDigits (by decide) (by decide) n
  refine ⟨?plain, ?signed, ?hexadecimal⟩
  case plain =>
    rw [numberOf_of_isDigit fun c => Nat.isDigit_of_mem_toDigits (by decide) (by decide), hdecimal, boundedByte]
  case signed => rw [numberOf, hdecimal, boundedByte]
  case hexadecimal => rw [numberOf, digitsValue_toDigits (by decide) (by decide), boundedByte]

/-! ## The listed bytes (R136, R140) -/

/-- The memory with a list of bytes stored at consecutive addresses, as a load of them leaves it
(`loadTokens_hexTokens`). -/
def Memory.writeBytes (m : Memory) (a : Nat) : List Byte → Memory
  | [] => m
  | b :: bs => (m.writeCell a b).writeBytes (a + 1) bs

theorem Memory.writeBytes_wf {m : Memory} (h : m.wf = true) {a : Nat} {bytes : List Byte}
    (hfit : a + bytes.length ≤ 256) : (m.writeBytes a bytes).wf = true := by
  induction bytes generalizing m a with
  | nil => exact h
  | cons b bs ih =>
    rw [List.length_cons] at hfit
    exact ih (Memory.writeCell_wf h b (by omega)) (by omega)

theorem Memory.readCell_writeBytes_outside (m : Memory) {a k : Nat} {bytes : List Byte}
    (hk : k < a ∨ a + bytes.length ≤ k) : (m.writeBytes a bytes).readCell k = m.readCell k := by
  induction bytes generalizing m a with
  | nil => rfl
  | cons b bs ih =>
    rw [List.length_cons] at hk
    rw [Memory.writeBytes, ih _ (by omega), Memory.readCell_writeCell_ne m b (by omega)]

theorem Memory.readCell_writeBytes_inside {m : Memory} (h : m.wf = true) {a k : Nat} {b : Byte} {bytes : List Byte}
    (hfit : a + bytes.length ≤ 256) (hk : bytes[k]? = some b) : (m.writeBytes a bytes).readCell (a + k) = b := by
  induction bytes generalizing m a k with
  | nil => cases hk
  | cons b' bs ih =>
    rw [List.length_cons] at hfit
    rw [Memory.writeBytes]
    cases k with
    | zero =>
      cases hk
      rw [Memory.readCell_writeBytes_outside _ (.inl (by omega)), Nat.add_zero, Memory.readCell_writeCell_same h]
    | succ k =>
      rw [Nat.add_comm k 1, ← Nat.add_assoc]
      exact ih (Memory.writeCell_wf h b' (by omega)) (by omega) hk

/-! ## The texts that list bytes (R138, R139) -/

/-- A hexadecimal digit is one of R139's, and neither separates tokens nor begins a comment. -/
theorem hexDigit_spec (n : Nibble) :
    digitValue 16 (hexDigit n) = some n.toNat ∧ (hexDigit n).isWhitespace = false ∧ hexDigit n ≠ ';' := by
  revert n
  decide

theorem toNat_nibbles (b : Byte) : (highNibble b).toNat * 16 + (lowNibble b).toNat = b.toNat := by
  have hhigh : (highNibble b).toNat = b.toNat / 16 := by
    rw [highNibble, BitVec.extractLsb'_toNat, Nat.shiftRight_eq_div_pow]
    omega
  have hlow : (lowNibble b).toNat = b.toNat % 16 := by
    rw [lowNibble, BitVec.extractLsb'_toNat, Nat.shiftRight_zero]
  rw [hhigh, hlow, Nat.div_add_mod']

theorem numberOf_hexToken (b : Byte) : numberOf (hexToken b) = .ok b := by
  have hvalue : digitsValue 16 [hexDigit (highNibble b), hexDigit (lowNibble b)] = some b.toNat := by
    simp [digitsValue, digitsValueFrom, hexDigit_spec, toNat_nibbles]
  have hbound : b.toNat ≤ 255 := Nat.le_of_lt_succ b.isLt
  rw [hexToken, numberOf, hvalue, boundedByte, if_pos hbound, BitVec.ofNat_toNat, BitVec.setWidth_eq]

theorem hexToken_isWord (b : Byte) : IsWord (hexToken b) := by
  simp [IsWord, hexToken, hexDigit_spec]

/-- The tokens of the listed bytes. -/
def hexTokens (line : Nat) (bytes : List Byte) : List Token := bytes.map fun b => { text := hexToken b, line := line }

theorem sourceOf_cons (b : Byte) (bs : List Byte) : sourceOf (b :: bs) = hexToken b ++ ' ' :: sourceOf bs := by
  simp [sourceOf]

theorem semicolon_not_mem_sourceOf (bytes : List Byte) : ';' ∉ sourceOf bytes := by
  induction bytes with
  | nil => nofun
  | cons b bs ih =>
    simp [sourceOf_cons, (hexToken_isWord b).semicolon_not_mem, ih]

theorem tokenizeFrom_sourceOf (line : Nat) (bytes : List Byte) :
    tokenizeFrom line [] (sourceOf bytes) = hexTokens line bytes := by
  induction bytes with
  | nil => rfl
  | cons b bs ih =>
    rw [sourceOf_cons, tokenizeFrom_word_blank line (hexToken_isWord b), ih, hexTokens, hexTokens, List.map_cons]

theorem tokensOf_sourceOf (bytes : List Byte) : tokensOf (sourceOf bytes) = hexTokens 1 bytes := by
  rw [tokensOf, stripComments_of_no_semicolon (semicolon_not_mem_sourceOf bytes), tokenizeFrom_sourceOf]

theorem tokensOf_word_sourceOf {word : List Char} (h : IsWord word) (bytes : List Byte) :
    tokensOf (word ++ ' ' :: sourceOf bytes) = { text := word, line := 1 } :: hexTokens 1 bytes := by
  have hsource : ';' ∉ word ++ ' ' :: sourceOf bytes := by
    simp [h.semicolon_not_mem, semicolon_not_mem_sourceOf]
  rw [tokensOf, stripComments_of_no_semicolon hsource, tokenizeFrom_word_blank 1 h, tokenizeFrom_sourceOf]

/-- The listed bytes are written from the cursor on, where they fit. -/
theorem loadTokens_hexTokens (line : Nat) {bytes : List Byte} {a : Nat} (hfit : a + bytes.length ≤ 256)
    (buffer : Memory) :
    loadTokens none (hexTokens line bytes) { cursor := a, buffer := buffer } =
      ({ cursor := a + bytes.length, buffer := buffer.writeBytes a bytes }, none) := by
  induction bytes generalizing a buffer with
  | nil => rfl
  | cons b bs ih =>
    rw [List.length_cons] at hfit
    have ha : a < 256 := by omega
    have hrest : a + 1 + bs.length ≤ 256 := by omega
    rw [hexTokens, List.map_cons, ← hexTokens, loadTokens_of_write rfl (numberOf_hexToken b) ha, ih hrest,
      List.length_cons, Nat.add_right_comm, Nat.add_assoc, Memory.writeBytes]

theorem isWord_of_org {org : List Char} (h : org ∈ [['o', 'r', 'g'], ['O', 'R', 'G']]) : IsWord org := by
  rcases List.mem_pair.1 h with rfl | rfl <;> simp [IsWord, Char.isWhitespace]

/-- Settles O50. -/
theorem loaderWritesTheListedBytes : Obligations.LoaderWritesTheListedBytes := by
  refine ⟨fun bytes buffer hfit hwf => ?list, fun org a bytes buffer horg hfit hwf => ?behindOrg, Token.isOrg_iff,
    fun before behind o t st st' v h ho hn => ?org⟩
  case list =>
    have hfit' : 0 + bytes.length ≤ 256 := by rwa [Nat.zero_add]
    refine ⟨buffer.writeBytes 0 bytes, ?_, Memory.writeBytes_wf hwf hfit', fun k b hk => ?_, fun k hk => ?_⟩
    · rw [load, tokensOf_sourceOf, loadTokens_hexTokens 1 hfit', Nat.zero_add]
    · simpa using Memory.readCell_writeBytes_inside hwf hfit' hk
    · exact Memory.readCell_writeBytes_outside buffer (.inr (by rwa [Nat.zero_add]))
  case behindOrg =>
    have ho : Token.isOrg { text := org, line := 1 } = true := (Token.isOrg_iff _).2 horg
    refine ⟨buffer.writeBytes a.toNat bytes, ?_, Memory.writeBytes_wf hwf hfit,
      fun _ _ => Memory.readCell_writeBytes_inside hwf hfit, fun _ => Memory.readCell_writeBytes_outside buffer⟩
    rw [load, tokensOf_word_sourceOf (isWord_of_org horg), hexTokens, List.map_cons, ← hexTokens,
      loadTokens_of_org ho (numberOf_hexToken a), loadTokens_hexTokens 1 hfit]
  case org => rw [loadTokens_append _ _ _ _ _ h, loadTokens_of_org ho hn]

end Sys2Proof.Machine
